-- ==== Sys2Proof/Word.lean ====
section
/-! DEFINITION. The words of the hardware, one abbreviation per format of spec/30_encoding.md rule R37. -/

namespace Sys2Proof

/-- BYTE8, the unit of input (R38). -/
abbrev Byte := BitVec 8

/-- SAMP8, one unsigned PCM sample (R43). -/
abbrev Sample := BitVec 8

/-- AMP2, the two-bit code of an amplitude (R40). -/
abbrev AmpCode := BitVec 2

/-- AMP16, eight AMP2 lanes, lane `i` at bits `[2i+1:2i]` (R41). -/
abbrev AmpBus := BitVec 16

/-- The accumulator register: `ACC_W = 9` bits, two's complement (R8, R14). -/
abbrev AccWord := BitVec 9

end Sys2Proof
end

