-- ==== Sys2Proof/Syntax.lean ====
section
/-! DEFINITION. The operations of spec/opcode_table.json, the words a host can present at a port, and the script line of
each operation (spec/30_encoding.md rules R39, R40, R44, R46, R50). -/

namespace Sys2Proof

/-- The bit order, a closed enumeration (R39). -/
inductive BitOrder where
  | littleEndianBits
  | bigEndianBits
deriving DecidableEq, Repr

/-- An amplitude, exactly +1 or -1 (R5, R40: a model may hold it as a two-valued type). -/
inductive Amplitude where
  | plus
  | minus
deriving DecidableEq, Repr

/-- One constructor per row of spec/opcode_table.json (R44). -/
inductive Instr where
  /-- EXPAND.LE (R52). -/
  | expandLE (byte : Byte)
  /-- EXPAND.BE (R53). -/
  | expandBE (byte : Byte)
  /-- NEW (R62). -/
  | new
  /-- ENCODE_NEXT.P (R64). -/
  | encodeNextP
  /-- ENCODE_NEXT.M (R65). -/
  | encodeNextM
  /-- CORE_RESET (R77). -/
  | coreReset (order : BitOrder)
  /-- PUSH_BYTE (R78). -/
  | pushByte (byte : Byte)
deriving DecidableEq, Repr

/-- A word presented at an input port: the port is the constructor, and it fixes the word's format (R44, R46). -/
inductive Request where
  /-- bit_expander `req`, XREQ9: `order` at bit 8, `byte` at bits 7:0 (R42). -/
  | req (word : BitVec 9)
  /-- delta_encoder `rst`, RST1. -/
  | rst (word : BitVec 1)
  /-- delta_encoder `amp_in`, AMP2 (R40). -/
  | ampIn (word : AmpCode)
  /-- dpcm_core {`rst`, `order_in`}, CRST2: `rst` at bit 1, `order_in` at bit 0. -/
  | coreRst (word : BitVec 2)
  /-- dpcm_core `byte_in`, BYTE8 (R38). -/
  | byteIn (word : Byte)
deriving DecidableEq, Repr

/-- `LE` and `BE`, the script's abbreviations (R50). -/
def BitOrder.script : BitOrder → String
  | .littleEndianBits => "LE"
  | .bigEndianBits => "BE"

/-- The script line of an operation (R50), its byte a decimal literal (R10). -/
def Instr.script : Instr → String
  | .expandLE b => "EXPAND " ++ toString b.toNat ++ ", LE"
  | .expandBE b => "EXPAND " ++ toString b.toNat ++ ", BE"
  | .new => "NEW"
  | .encodeNextP => "ENC +1"
  | .encodeNextM => "ENC -1"
  | .coreReset o => "RESET " ++ o.script
  | .pushByte b => "PUSH " ++ toString b.toNat

end Sys2Proof
end

