-- ==== Sys2Proof/WellFormed.lean ====
section
/-! DEFINITION. Which port words select an operation, and which result words the bit_expander can show
(spec/30_encoding.md rules R41, R44, R47, R48). -/

namespace Sys2Proof

/-- An AMP2 code that stands for an amplitude: bit 0 is 1 (R40); `00` and `10` are reserved (R47). -/
def AmpCode.wellFormed (a : AmpCode) : Bool := a.getLsbD 0

/-- The AMP16 pattern `amp_bus & 0x5555 = 0x5555`: no lane holds a reserved code (R41, R47). -/
def AmpBus.wellFormed (w : AmpBus) : Bool := (w &&& 0x5555#16) == 0x5555#16

/-- A port word that selects an operation: not an idle reset word (R44) and not a reserved amplitude (R47). -/
def Request.wellFormed : Request → Bool
  | .req _ => true
  | .rst w => w == 1#1
  | .ampIn a => AmpCode.wellFormed a
  | .coreRst c => c.getLsbD 1
  | .byteIn _ => true

/-- Every operation is well formed: all 256 bytes and both bit orders are defined (R48), and the operand types hold
nothing else. -/
def Instr.wellFormed : Instr → Bool
  | .expandLE _ => true
  | .expandBE _ => true
  | .new => true
  | .encodeNextP => true
  | .encodeNextM => true
  | .coreReset _ => true
  | .pushByte _ => true

end Sys2Proof
end

