-- ==== Sys2Proof/Decode.lean ====
section
/-! DEFINITION. The decoder of a port word, the encoder of an operation, and the decoder of a bare opcode-table word
(spec/30_encoding.md rules R39 to R48). -/

namespace Sys2Proof

/-- Why a port word is no operation. -/
inductive DecodeError where
  /-- An idle reset word, RST1 `0` or CRST2 `0o`: it selects no operation (R44). -/
  | idle
  /-- AMP2 `00` or `10` (R47). -/
  | reservedAmplitude
deriving DecidableEq, Repr

/-- ORD1: 0 is LittleEndianBits, 1 is BigEndianBits (R39). -/
def orderOfBit (o : Bool) : BitOrder := if o then .bigEndianBits else .littleEndianBits

/-- ORD1 of a bit order (R39). -/
def orderCode : BitOrder → BitVec 1
  | .littleEndianBits => 0#1
  | .bigEndianBits => 1#1

/-- AMP2 of an amplitude: `01` is +1, `11` is -1 (R40). -/
def ampCode : Amplitude → AmpCode
  | .plus => 0b01#2
  | .minus => 0b11#2

/-- The amplitude of an AMP2 code, none where the code is reserved (R40, R47). -/
def ampOfCode (a : AmpCode) : Option Amplitude :=
  if a.getLsbD 0 then some (if a.getLsbD 1 then .minus else .plus) else none

/-- The operation a port word selects (R44, R45), or why it selects none. -/
def decode : Request → Except DecodeError Instr
  | .req x =>
      if x.getLsbD 8 then .ok (.expandBE (x.setWidth 8)) else .ok (.expandLE (x.setWidth 8))
  | .rst w => if w.getLsbD 0 then .ok .new else .error .idle
  | .ampIn a =>
      match ampOfCode a with
      | some .plus => .ok .encodeNextP
      | some .minus => .ok .encodeNextM
      | none => .error .reservedAmplitude
  | .coreRst c => if c.getLsbD 1 then .ok (.coreReset (orderOfBit (c.getLsbD 0))) else .error .idle
  | .byteIn b => .ok (.pushByte b)

/-- The port word of an operation (R44, R50). -/
def encode : Instr → Request
  | .expandLE b => .req (0#1 ++ b)
  | .expandBE b => .req (1#1 ++ b)
  | .new => .rst 1#1
  | .encodeNextP => .ampIn (ampCode .plus)
  | .encodeNextM => .ampIn (ampCode .minus)
  | .coreReset o => .coreRst (1#1 ++ orderCode o)
  | .pushByte b => .byteIn b

/-- A row of the operation table (R44) as bits: the width of its format, its mask and match, and the port it arrives at. -/
structure TableRow where
  width : Nat
  mask : Nat
  pattern : Nat
  port : Instr
deriving DecidableEq, Repr

/-- The seven rows of R44 in the table's order; `port` is any operation of that port. -/
def tableRows : List TableRow :=
  [ ⟨9, 0x100, 0x000, .expandLE 0#8⟩,
    ⟨9, 0x100, 0x100, .expandBE 0#8⟩,
    ⟨1, 0x1, 0x1, .new⟩,
    ⟨2, 0x3, 0x1, .encodeNextP⟩,
    ⟨2, 0x3, 0x3, .encodeNextM⟩,
    ⟨2, 0x2, 0x2, .coreReset .littleEndianBits⟩,
    ⟨8, 0x00, 0x00, .pushByte 0#8⟩ ]

/-- The word `w` presented at the port of the request `r`. -/
def presentAt (r : Request) (w : Nat) : Request :=
  match r with
  | .req _ => .req (BitVec.ofNat 9 w)
  | .rst _ => .rst (BitVec.ofNat 1 w)
  | .ampIn _ => .ampIn (BitVec.ofNat 2 w)
  | .coreRst _ => .coreRst (BitVec.ofNat 2 w)
  | .byteIn _ => .byteIn (BitVec.ofNat 8 w)

/-- Whether a bare word of `nbits` bits can be the word of a row: `nbits` is the row's width, or that width in whole bytes. -/
def TableRow.fits (row : TableRow) (nbits w : Nat) : Bool :=
  (nbits == row.width || nbits == 8 * ((row.width + 7) / 8)) && w < 2 ^ row.width && w &&& row.mask == row.pattern

/-- The port word that a bare opcode-table word stands for. DESIGN CHOICE (log entry 10), safe: the table's word does not
say its port, which alone selects the operation (R44); the first row of the table that the word fits is taken. -/
def tableRequest (nbits w : Nat) : Option Request :=
  (tableRows.find? (fun row => row.fits nbits w)).map (fun row => presentAt (encode row.port) w)

/-- What the decoder reads from a bare opcode-table word. -/
def decodeTableWord (nbits w : Nat) : Option Instr :=
  match tableRequest nbits w with
  | some r => (decode r).toOption
  | none => none

end Sys2Proof
end

