-- ==== Sys2Proof/Config.lean ====
section
/-! DEFINITION. The parameters of the model (spec/00_scope.md rules R6 and R7), whose values for this hardware stand in
Machine/Ops.lean, and the bytes of an unbounded input stream, which the environment chooses (spec/20_memory.md rule R26). No
operation leaves a value open. -/

namespace Sys2Proof

/-- `MOD_SEM`: which remainder the accumulator update uses for a negative sum (R6). -/
inductive ModSem where
  | floor
  | trunc
deriving DecidableEq, Repr

/-- The two parameters that the spec asks a model to take as arguments: `MOD_SEM` (R6) and `SCALE` (R7). -/
structure Params where
  modSem : ModSem
  scale : Nat
deriving DecidableEq, Repr

/-- The byte at each position of an unbounded input stream: the environment's free choice (R26). DESIGN CHOICE (log entry 15),
safe: it has no body, so what is proved holds for every such stream. -/
opaque Config.streamByte : Nat → Byte

end Sys2Proof
end

