-- ==== Sys2Proof/Machine/State.lean ====
section
/-! DEFINITION. The state: the two registers of spec/10_state.md rule R13, what the output ports show, and the environment
of spec/20_memory.md that a run observes or draws from. -/

namespace Sys2Proof.Machine

/-- What the last operation showed at its block's output port (R44, R46). No operation reads it. -/
inductive Result where
  /-- NEW and CORE_RESET have no result. -/
  | nothing
  /-- `amp_bus` of an EXPAND. -/
  | ampBus (word : AmpBus)
  /-- `sample` of an ENCODE_NEXT (one) or `sample_out` of a PUSH_BYTE (eight, lane 0 first). -/
  | samples (ys : List Sample)
deriving DecidableEq, Repr

/-- One event of the input channel: a byte (R26) or an I/O fault reported by the channel (R88). -/
inductive StreamItem where
  | byte (b : Byte)
  | ioFault
deriving DecidableEq, Repr

/-- What follows the listed elements of an input stream (R26: the stream is finite or unbounded). -/
inductive StreamTail where
  /-- Nothing: no element remains, and `InRead()` is `EOS` (R27). -/
  | ends
  /-- Bytes without end: the next one is `Config.streamByte next`. -/
  | unbounded (next : Nat)
deriving DecidableEq, Repr

/-- The unread part of the input stream (R26): the elements listed, the next one first, and what follows them. -/
structure InputStream where
  items : List StreamItem
  tail : StreamTail
deriving DecidableEq, Repr

/-- What `InRead()` answers (R27). -/
inductive ReadResult where
  | byte (b : Byte)
  | eos
  | readError
deriving DecidableEq, Repr

/-- What `OutWrite(s)` answers (R29). -/
inductive WriteResult where
  | ok
  | writeError
deriving DecidableEq, Repr

/-- Why the reference host stopped (R99). -/
inductive StopReason where
  /-- `EOS`: success. -/
  | endOfStream
  /-- InputReadError (R88). -/
  | inputReadError
  /-- SinkOpenError (R89). -/
  | sinkOpenError
  /-- SinkWriteError (R90). -/
  | sinkWriteError
deriving DecidableEq, Repr

/-- What the host is doing when it has no word left to present. -/
inductive HostPhase where
  /-- A host that only presents the words of `requests` (R31). -/
  | direct
  /-- The reference host (R80) before its session; `sinkOpens` says whether the sink can be created (R89). -/
  | opening (order : BitOrder) (sinkOpens : Bool)
  /-- The reference host in its loop (R80). -/
  | running
  /-- A host that issues no more in its session (R99). DESIGN CHOICE (log entry 26), unsafe for a claim that reads it there: it
  stays while a new session, begun after a write error by words kept in `requests` (R94), runs. -/
  | stopped (why : StopReason)
deriving DecidableEq, Repr

/-- There is no fault: the core raises no exception, trap or fault (R86), and nothing is stuck (R113). -/
inductive Fault where
deriving DecidableEq, Repr

/-- Where the spec gives an operation no meaning (R12, R97). -/
inductive Refusal where
  /-- Raised by no arm: every operation has its meaning. Safe. -/
  | notModelled (mnemonic : String)
  /-- ENCODE_NEXT before the first NEW or CORE_RESET, PUSH_BYTE before the first CORE_RESET (R23, R97). Raised by those
  meanings, and by the step for a reserved amplitude code before the first reset. Safe. -/
  | notReset
  /-- A reserved AMP2 code at `amp_in` (R47, R97). Raised by the step, since no operation has such a code. Safe. -/
  | reservedAmplitude
deriving DecidableEq, Repr

/-- The machine with its environment. `acc` and `order` are all the hardware holds (R13). -/
structure State where
  /-- `ACC`, or no value before the first NEW or CORE_RESET (R14, R23). -/
  acc : Option AccWord
  /-- `CFG.ORDER`, or no value before the first CORE_RESET (R16, R23). -/
  order : Option BitOrder
  /-- The output ports after the last operation (R44, R46). -/
  result : Result
  /-- Environment: the words the host presents next, the first one first (R31). -/
  requests : List Request
  /-- Environment: the unread part of the input stream (R26, R27). -/
  input : InputStream
  /-- Environment: what the next `OutWrite` calls answer; past its end they answer ok (R29). -/
  sinkReplies : List WriteResult
  /-- Environment: the output stream of the session (R28). -/
  output : List Sample
  /-- Environment: what the host does when `requests` is empty (R80, R99). -/
  host : HostPhase
deriving DecidableEq, Repr

/-- Power-on: the registers hold no value (R23, R101), and the host asks for nothing. -/
def State.powerOn : State where
  acc := none
  order := none
  result := .nothing
  requests := []
  input := ⟨[], .ends⟩
  sinkReplies := []
  output := []
  host := .direct

/-- Right after the reset operation: `ACC = 0` (R22, R100) and `CFG.ORDER` its operand. DESIGN CHOICE (log entry 7), unsafe:
the operand is LittleEndianBits; the spec gives no default (R104). -/
def State.reset : State where
  acc := some 0#9
  order := some .littleEndianBits
  result := .nothing
  requests := []
  input := ⟨[], .ends⟩
  sinkReplies := []
  output := []
  host := .direct

end Sys2Proof.Machine
end

