-- ==== Sys2Proof/Machine/Ops.lean ====
section
/-! DEFINITION. The arithmetic of the delta_encoder and the shared operation that starts a session (spec/00_scope.md rules R5
to R8 and R11, spec/41_delta_encoder.md). There is no exception to take and none to return from (R86, R93, R94). -/

namespace Sys2Proof.Machine

/-- The parameters of this hardware: `MOD_SEM = FLOOR` (R6) and `SCALE = 8388608` (R7). UNVERIFIED, unsafe: log entries 4
and 5. -/
def hardware : Params where
  modSem := .floor
  scale := 8388608

/-- `MODULUS` (R5). -/
def modulus : Int := 255

/-- The flooring remainder of R11, for `n` positive: the `r` with `0 <= r < n` and `a - r` divisible by `n`. -/
def fmod (a n : Int) : Int := a % n

/-- The truncating remainder of R11: it has the sign of `a` or is zero. -/
def tmod (a n : Int) : Int := a.tmod n

/-- The low eight bits of an integer's two's complement form (R11). -/
def low8 (a : Int) : Sample := BitVec.ofInt 8 a

/-- The integer an amplitude stands for. -/
def ampValue : Amplitude → Int
  | .plus => 1
  | .minus => -1

/-- The reduction of the accumulator modulo 255 under a given `MOD_SEM` (R63). -/
def reduce (m : ModSem) (t : Int) : Int :=
  match m with
  | .floor => fmod t modulus
  | .trunc => tmod t modulus

/-- The quantiser: the low byte of the exact product, whatever the product's width (R67, R71). -/
def quantise (scale : Nat) (acc : Int) : Sample := low8 (acc * (scale : Int))

/-- One ENCODE_NEXT on the accumulator: the sum is exact, then reduced, and the sample comes from the UPDATED accumulator
(R63, R72). -/
def encodeNext (p : Params) (acc : AccWord) (a : Amplitude) : AccWord × Sample :=
  let acc' := reduce p.modSem (acc.toInt + ampValue a)
  (BitVec.ofInt 9 acc', quantise p.scale acc')

/-- ENCODE_NEXT of each amplitude in turn: the last accumulator and the samples, first one first (R78, R79). -/
def encodeLanes (p : Params) (acc : AccWord) : List Amplitude → AccWord × List Sample
  | [] => (acc, [])
  | a :: rest =>
      let one := encodeNext p acc a
      let more := encodeLanes p one.1 rest
      (more.1, one.2 :: more.2)

/-- What NEW does and CORE_RESET performs: `ACC <- 0`, no result (R62), and an empty output stream (R28). -/
def startSession (s : State) : State :=
  { s with acc := some 0#9, result := .nothing, output := [] }

end Sys2Proof.Machine
end

