-- ==== Sys2Proof/Machine/Operands.lean ====
section
/-! DEFINITION. Operand assembly: from a byte and a bit order to eight amplitudes and the AMP16 word (spec/30_encoding.md
rules R41 and R45, spec/40_bit_expander.md). -/

namespace Sys2Proof.Machine

/-- The bit-order multiplexer: `sel[i]` (R54). -/
def selBit (order : BitOrder) (byte : Byte) (i : Nat) : Bool :=
  match order with
  | .littleEndianBits => byte.getLsbD i
  | .bigEndianBits => byte.getLsbD (7 - i)

/-- The sign mapper: 1 gives +1 and 0 gives -1 (R55). -/
def signMap (bit : Bool) : Amplitude := if bit then .plus else .minus

/-- The eight amplitudes of a byte, lane 0 first (R51 to R53). -/
def expand (byte : Byte) (order : BitOrder) : List Amplitude :=
  [0, 1, 2, 3, 4, 5, 6, 7].map (fun i => signMap (selBit order byte i))

/-- Lanes packed into an AMP16 word, the first lane in the lowest bits (R41). -/
def packLanes : List Amplitude → AmpBus
  | [] => 0#16
  | a :: rest => (packLanes rest <<< 2) ||| (ampCode a).setWidth 16

/-- Lane `i` of an AMP16 word, at bits `[2i+1:2i]` (R41). -/
def laneOf (bus : AmpBus) (i : Nat) : AmpCode := bus.extractLsb' (2 * i) 2

/-- The result word of EXPAND (R51). -/
def expandWord (byte : Byte) (order : BitOrder) : AmpBus := packLanes (expand byte order)

end Sys2Proof.Machine
end

