-- ==== Sys2Proof/Machine/BitExpander.lean ====
section
/-! DEFINITION. The bit_expander's operations (spec/40_bit_expander.md). They read no state and cannot be refused (R56). -/

namespace Sys2Proof.Machine

/-- EXPAND shows its AMP16 word at `amp_bus` and touches no register and no stream (R51, R56). -/
def expandInto (byte : Byte) (order : BitOrder) (s : State) : State :=
  { s with result := .ampBus (expandWord byte order) }

/-- EXPAND.LE (R52). -/
def execExpandLE (byte : Byte) (s : State) : Host.Outcome State Fault Refusal :=
  .next (expandInto byte .littleEndianBits s)

/-- EXPAND.BE (R53). -/
def execExpandBE (byte : Byte) (s : State) : Host.Outcome State Fault Refusal :=
  .next (expandInto byte .bigEndianBits s)

end Sys2Proof.Machine
end

