-- ==== Sys2Proof/Machine/DeltaEncoder.lean ====
section
/-! DEFINITION. The delta_encoder's operations (spec/41_delta_encoder.md). -/

namespace Sys2Proof.Machine

/-- ENCODE_NEXT with the parameters as arguments (R63): refused where `ACC` holds no value (R23). -/
def encodeNextInto (p : Params) (a : Amplitude) (s : State) : Host.Outcome State Fault Refusal :=
  match s.acc with
  | none => .refused .notReset
  | some acc =>
      let one := encodeNext p acc a
      .next { s with acc := some one.1, result := .samples [one.2] }

/-- NEW, always accepted (R62, R102). -/
def execNew (s : State) : Host.Outcome State Fault Refusal :=
  .next (startSession s)

/-- ENCODE_NEXT.P (R64). -/
def execEncodeNextP (s : State) : Host.Outcome State Fault Refusal :=
  encodeNextInto hardware .plus s

/-- ENCODE_NEXT.M (R65). -/
def execEncodeNextM (s : State) : Host.Outcome State Fault Refusal :=
  encodeNextInto hardware .minus s

end Sys2Proof.Machine
end

