-- ==== Sys2Proof/Machine/DpcmCore.lean ====
section
/-! DEFINITION. The operations of dpcm_core, the two blocks wired in a pipeline (spec/42_dpcm_core.md). -/

namespace Sys2Proof.Machine

/-- PUSH_BYTE with the parameters as arguments: the byte expanded by `CFG.ORDER`, its eight amplitudes encoded in lane order
in one atomic step (R30, R78, R79); refused where a register holds no value (R23). -/
def pushByteInto (p : Params) (byte : Byte) (s : State) : Host.Outcome State Fault Refusal :=
  match s.acc, s.order with
  | some acc, some order =>
      let all := encodeLanes p acc (expand byte order)
      .next { s with acc := some all.1, result := .samples all.2 }
  | _, _ => .refused .notReset

/-- CORE_RESET: `CFG.ORDER` takes the operand, and NEW is performed (R77). -/
def execCoreReset (order : BitOrder) (s : State) : Host.Outcome State Fault Refusal :=
  .next { startSession s with order := some order }

/-- PUSH_BYTE (R78). -/
def execPushByte (byte : Byte) (s : State) : Host.Outcome State Fault Refusal :=
  pushByteInto hardware byte s

end Sys2Proof.Machine
end

