-- ==== Sys2Proof/Machine/Dispatch.lean ====
section
/-! DEFINITION. One arm per operation of spec/opcode_table.json. -/

namespace Sys2Proof.Machine

def exec (i : Instr) (s : State) : Host.Outcome State Fault Refusal :=
  match i with
  | .expandLE byte => Sys2Proof.Machine.execExpandLE byte s
  | .expandBE byte => Sys2Proof.Machine.execExpandBE byte s
  | .new => Sys2Proof.Machine.execNew s
  | .encodeNextP => Sys2Proof.Machine.execEncodeNextP s
  | .encodeNextM => Sys2Proof.Machine.execEncodeNextM s
  | .coreReset order => Sys2Proof.Machine.execCoreReset order s
  | .pushByte byte => Sys2Proof.Machine.execPushByte byte s

end Sys2Proof.Machine
end

