-- ==== Sys2Proof/Machine/Driver.lean ====
section
/-! DEFINITION. The environment: the stream primitives, the reference host and what becomes of a port word that selects no
operation (spec/20_memory.md, spec/42_dpcm_core.md rule R80, spec/60_exceptions.md rules R88 to R99). Nothing here changes
`ACC` or `CFG.ORDER`. -/

namespace Sys2Proof.Machine

/-- `InRead()`: the next element, consumed; `EOS` where none remains (R27). An unbounded stream never ends (R26). -/
def inRead : InputStream → ReadResult × InputStream
  | ⟨.byte b :: rest, tail⟩ => (.byte b, ⟨rest, tail⟩)
  | ⟨.ioFault :: rest, tail⟩ => (.readError, ⟨rest, tail⟩)
  | ⟨[], .ends⟩ => (.eos, ⟨[], .ends⟩)
  | ⟨[], .unbounded n⟩ => (.byte (Config.streamByte n), ⟨[], .unbounded (n + 1)⟩)

/-- A word that starts a new session: that of NEW or of CORE_RESET (R94, R102). -/
def startsSession : Request → Bool
  | .req _ => false
  | .rst w => w.getLsbD 0
  | .ampIn _ => false
  | .coreRst c => c.getLsbD 1
  | .byteIn _ => false

/-- The host issues no further operation in this session (R90, R91, R99). DEDUCED (log entry 18), safe: the words up to the
next one that starts a session are dropped; those of a new session, which R94 allows, stay. DESIGN CHOICE (log entry 26),
unsafe for a claim that reads it there: the spec is silent on the host's status in such a new session, and `host` keeps `why`
while that session runs. -/
def stopHost (why : StopReason) (s : State) : State :=
  { s with requests := s.requests.dropWhile (fun r => !startsSession r), host := .stopped why }

/-- `OutWrite(y)`: it appends the sample and answers ok, or appends nothing and answers an error (R29). -/
def outWrite (y : Sample) (s : State) : WriteResult × State :=
  match s.sinkReplies with
  | [] => (.ok, { s with output := s.output ++ [y] })
  | .ok :: rest => (.ok, { s with output := s.output ++ [y], sinkReplies := rest })
  | .writeError :: rest => (.writeError, { s with sinkReplies := rest })

/-- The samples of one operation appended in the order returned; the first error loses its own sample and the later ones
and ends the session (R29, R90). -/
def writeAll : List Sample → State → State
  | [], s => s
  | y :: rest, s =>
      match outWrite y s with
      | (.ok, s') => writeAll rest s'
      | (.writeError, s') => stopHost .sinkWriteError s'

/-- The host passes the samples an operation returned to `OutWrite` (R31, R80). -/
def deliver (s : State) : State :=
  match s.result with
  | .samples ys => writeAll ys s
  | .nothing => s
  | .ampBus _ => s

/-- The host's part after an operation completed; a refused operation has none. -/
def deliverOutcome : Host.Outcome State Fault Refusal → Host.Outcome State Fault Refusal
  | .next s => .next (deliver s)
  | .fault r => .fault r
  | .refused r => .refused r

/-- The host's next move when it has no word to present: the loop of the reference host (R80), and nothing for a host that
is direct or has stopped (R31, R99). DESIGN CHOICE (log entry 17), safe: the sink is opened before the CORE_RESET. -/
def hostMove (s : State) : State :=
  match s.host with
  | .direct => s
  | .stopped _ => s
  | .opening order true => { s with requests := [encode (.coreReset order)], host := .running }
  | .opening _ false => { stopHost .sinkOpenError s with output := [] }
  | .running =>
      match inRead s.input with
      | (.byte b, rest) => { s with requests := [encode (.pushByte b)], input := rest }
      | (.eos, rest) => { stopHost .endOfStream s with input := rest }
      | (.readError, rest) => { stopHost .inputReadError s with input := rest }

/-- What a port word that selects no operation does: an idle reset word changes nothing (R44); a reserved amplitude is
refused, after the check that `ACC` holds a value, in the order of R63. -/
def rejectWord (e : DecodeError) (s : State) : Host.Outcome State Fault Refusal :=
  match e, s.acc with
  | .idle, _ => .next s
  | .reservedAmplitude, none => .refused .notReset
  | .reservedAmplitude, some _ => .refused .reservedAmplitude

end Sys2Proof.Machine
end

