-- ==== Sys2Proof/Machine/Issue.lean ====
section
/-! DEFINITION. How a word comes from the host to the core: which word is next, what presenting it does, and how a word is
placed first (spec/20_memory.md rules R31 and R35, spec/30_encoding.md rule R44). -/

namespace Sys2Proof.Machine

/-- The next word the host presents, and the state with that word taken; none where the host has no word to present. -/
def nextWord (s : State) : Option (Request × State) :=
  match s.requests with
  | [] => none
  | r :: rest => some (r, { s with requests := rest })

/-- A word arrives at its port: the operation runs whole and the host passes its samples on (R30, R44, R80). -/
def issue (r : Request) (s : State) : Host.Outcome State Fault Refusal :=
  match decode r with
  | .ok i => deliverOutcome (exec i s)
  | .error e => rejectWord e s

/-- A word put before the words the host has yet to present (log entry 9). -/
def placeWord (r : Request) (s : State) : State := { s with requests := r :: s.requests }

end Sys2Proof.Machine
end

