-- ==== Sys2Proof/Machine/Step.lean ====
section
/-! DEFINITION. One step: the host presents one word and the operation it selects runs whole, or, with no word to present, the
host makes its own next move (spec/00_scope.md rule R9, spec/20_memory.md rules R31 and R35). -/

namespace Sys2Proof.Machine

def step (s : State) : Host.Outcome State Fault Refusal :=
  match nextWord s with
  | none => .next (hostMove s)
  | some (r, s') => issue r s'

/-- The opcode-table word `w` as the next word the host presents (log entries 9 and 10); a word that fits no row leaves the
state as it is. -/
def State.withFetchWord (s : State) (nbits w : Nat) : State :=
  match tableRequest nbits w with
  | some r => placeWord r s
  | none => s

end Sys2Proof.Machine
end

