-- ==== Sys2Proof/Safety.lean ====
section
/-! DEFINITION. What counts as a safe state and a safe run, and the words of the spec that only its claims use
(spec/40_bit_expander.md rules R55, R58, R60; spec/41_delta_encoder.md rule R68; spec/60_exceptions.md rule R97). -/

namespace Sys2Proof.Machine

/-- The number of 1 bits of a byte (R58). -/
def popcount (b : Byte) : Nat := ((List.range 8).map (fun i => (b.getLsbD i).toNat)).sum

/-- The number of 1 bits of a sequence of bytes, the `P` of R83. -/
def totalOnes (bs : List Byte) : Nat := (bs.map popcount).sum

/-- The sum of a sequence of amplitudes. -/
def ampSum (amps : List Amplitude) : Int := (amps.map ampValue).sum

/-- `rev8` of R55: the byte with its bits in reverse order. -/
def rev8 (b : Byte) : Byte :=
  BitVec.ofNat 8 ((List.range 8).map (fun i => (b.getLsbD i).toNat * 2 ^ (7 - i))).sum

/-- `spread` of R55: bit `k` of the byte at position `2k`, zeros at the odd positions. -/
def spread (v : Byte) : BitVec 16 :=
  BitVec.ofNat 16 ((List.range 8).map (fun k => (v.getLsbD k).toNat * 2 ^ (2 * k))).sum

/-- `bit` of R60: 1 for +1 and 0 for -1. -/
def ampBit : Amplitude → Nat
  | .plus => 1
  | .minus => 0

/-- `collapse` of R60: the byte that eight amplitudes stand for. It is no operation of the hardware. -/
def collapse (amps : List Amplitude) (order : BitOrder) : Nat :=
  ((List.range 8).map (fun i =>
    ampBit (amps.getD i .minus) *
      2 ^ (match order with | .littleEndianBits => i | .bigEndianBits => 7 - i))).sum

/-- Both registers hold a value: a CORE_RESET has been issued (R103). -/
def Ready (s : State) : Prop := s.acc.isSome = true ∧ s.order.isSome = true

/-- What every reachable state of this hardware satisfies. -/
structure Inv (s : State) : Prop where
  /-- `ACC` lies in 0 to 254 (R14, R68). -/
  accRange : ∀ a, s.acc = some a → 0 ≤ a.toInt ∧ a.toInt ≤ 254
  /-- Whatever gives `CFG.ORDER` a value gives `ACC` one (R77). -/
  orderHasAcc : s.order.isSome = true → s.acc.isSome = true
  /-- `amp_bus` holds no reserved code (R41, R58). -/
  busLegal : ∀ w, s.result = .ampBus w → AmpBus.wellFormed w = true
  /-- An operation that answers samples answers one or eight (R30), and on this hardware each is `0x00` (R70). -/
  samplesZero : ∀ ys, s.result = .samples ys → (ys.length = 1 ∨ ys.length = 8) ∧ ∀ y ∈ ys, y = 0#8
  /-- The output stream holds `0x00` only (R70). -/
  outputZero : ∀ y ∈ s.output, y = 0#8

/-- The states that a run of the reference host goes through (R80): before its session, its CORE_RESET about to be issued,
in its loop with or without a byte in hand, or stopped. -/
def RefHostRun (s : State) : Prop :=
  match s.host with
  | .direct => False
  | .opening _ _ => s.requests = []
  | .running =>
      (∃ o, s.requests = [encode (.coreReset o)]) ∨
        (Ready s ∧ (s.requests = [] ∨ ∃ b, s.requests = [encode (.pushByte b)]))
  | .stopped _ => s.requests = []

/-- The samples a result carries. -/
def samplesOf : Result → List Sample
  | .nothing => []
  | .ampBus _ => []
  | .samples ys => ys

/-- ENCODE_NEXT iterated over amplitudes, the first one first: the last state and the samples in the order returned, or none
where one of them is refused (the loop of R78). -/
def encodeEach (p : Params) : List Amplitude → State → Option (State × List Sample)
  | [], s => some (s, [])
  | x :: rest, s =>
      match encodeNextInto p x s with
      | .next t => (encodeEach p rest t).map (fun u => (u.1, samplesOf t.result ++ u.2))
      | .fault _ => none
      | .refused _ => none

end Sys2Proof.Machine
end

