-- ==== Sys2Proof/Certificates/Slice0/Obligations.lean ====
section
/-! DEFINITION. The statements for the provers. Each docstring names the rules of spec/ it formalises. Every equation
`exec … = .next { s with … }` is also the instruction's frame: the fields not named are unchanged. The hardware has no memory,
no flag, no exception register and no program counter (R17, R18, R20, R25), so those fields are the whole state. -/

open Sys2Proof Sys2Proof.Machine

/-! ## Encoding -/

/-- R44, R45, R50: the word of an operation, presented at its port, selects that operation with every operand intact. -/
def Obligations.DecodeEncode : Prop := ∀ i : Instr, decode (encode i) = .ok i

/-- R44, R45: no other word at any port selects it. -/
def Obligations.DecodedWordIsEncoded : Prop := ∀ (r : Request) (i : Instr), decode r = .ok i → r = encode i

/-- R44, R47, R48: the words that select no operation are the three idle reset words and the two reserved amplitude codes. -/
def Obligations.RejectedWordsExactly : Prop :=
  (∀ r, decode r = .error .reservedAmplitude ↔ r = .ampIn 0b00#2 ∨ r = .ampIn 0b10#2) ∧
    (∀ r, decode r = .error .idle ↔ r = .rst 0#1 ∨ r = .coreRst 0b00#2 ∨ r = .coreRst 0b01#2)

/-- R44, R50: a word of each row, written out from the row's pattern. -/
def Obligations.PatternWordsDecode : Prop :=
  decode (.req 0b000010010#9) = .ok (.expandLE 0x12#8) ∧
    decode (.req 0b100010010#9) = .ok (.expandBE 0x12#8) ∧
    decode (.rst 0b1#1) = .ok .new ∧
    decode (.ampIn 0b01#2) = .ok .encodeNextP ∧
    decode (.ampIn 0b11#2) = .ok .encodeNextM ∧
    decode (.coreRst 0b10#2) = .ok (.coreReset .littleEndianBits) ∧
    decode (.coreRst 0b11#2) = .ok (.coreReset .bigEndianBits) ∧
    decode (.byteIn 0b11101111#8) = .ok (.pushByte 0xEF#8)

/-! ## The bit_expander -/

/-- R52: EXPAND.LE completes in every state, lane `i` of its word is `2 * ((byte >> i) & 1) - 1`, and nothing but the output
port changes; its word is `0` followed by the byte. -/
def Obligations.ExpandLEResult : Prop :=
  ∀ (b : Byte) (s : State), ∃ w : AmpBus,
    exec (.expandLE b) s = .next { s with result := .ampBus w } ∧
      (∀ i < 8, (laneOf w i).toInt = 2 * (((b.toNat >>> i) &&& 1 : Nat) : Int) - 1) ∧
      decode (.req (0#1 ++ b)) = .ok (.expandLE b)

/-- R53: EXPAND.BE completes in every state, lane `i` of its word comes from bit `7 - i`, and nothing but the output port
changes; its word is `1` followed by the byte. -/
def Obligations.ExpandBEResult : Prop :=
  ∀ (b : Byte) (s : State), ∃ w : AmpBus,
    exec (.expandBE b) s = .next { s with result := .ampBus w } ∧
      (∀ i < 8, (laneOf w i).toInt = 2 * (((b.toNat >>> (7 - i)) &&& 1 : Nat) : Int) - 1) ∧
      decode (.req (1#1 ++ b)) = .ok (.expandBE b)

/-- R54, R55: each lane is `{NOT sel[i], 1}` for the one selected bit, a lane depends on no other bit, and the whole word has
the closed form of R55 under either order. -/
def Obligations.ExpandWordClosedForm : Prop :=
  (∀ (b : Byte) (i : Nat), i < 8 →
      laneOf (expandWord b .littleEndianBits) i = BitVec.ofBool (!b.getLsbD i) ++ 1#1 ∧
        laneOf (expandWord b .bigEndianBits) i = BitVec.ofBool (!b.getLsbD (7 - i)) ++ 1#1) ∧
    (∀ b : Byte, expandWord b .littleEndianBits = 0x5555#16 ||| (spread (~~~b) <<< 1)) ∧
    (∀ b : Byte, expandWord b .bigEndianBits = 0x5555#16 ||| (spread (~~~(rev8 b)) <<< 1))

/-- R58: every lane is `01` or `11`, the word satisfies the 0x5555 pattern, as many lanes are +1 as the byte has 1 bits, and
the eight amplitudes sum to `2 * popcount - 8`. -/
def Obligations.AmplitudeDomain : Prop :=
  ∀ (b : Byte) (o : BitOrder),
    (∀ i < 8, laneOf (expandWord b o) i = 0b01#2 ∨ laneOf (expandWord b o) i = 0b11#2) ∧
      expandWord b o &&& 0x5555#16 = 0x5555#16 ∧
      (expand b o).length = 8 ∧
      (expand b o).count .plus = popcount b ∧
      ampSum (expand b o) = 2 * (popcount b : Int) - 8 ∧
      ampSum (expand b o) % 2 = 0 ∧ -8 ≤ ampSum (expand b o) ∧ ampSum (expand b o) ≤ 8

/-- R59: big-endian is little-endian reversed, and is little-endian of the reversed byte. -/
def Obligations.BigEndianIsReversed : Prop :=
  ∀ b : Byte,
    expand b .bigEndianBits = (expand b .littleEndianBits).reverse ∧
      expand b .bigEndianBits = expand (rev8 b) .littleEndianBits

/-- R60: collapsing the eight amplitudes gives the byte back; so distinct bytes give distinct arrays, and every array of
eight amplitudes comes from some byte. -/
def Obligations.AmplitudeRoundTrip : Prop :=
  (∀ (b : Byte) (o : BitOrder), collapse (expand b o) o = b.toNat) ∧
    (∀ (b b' : Byte) (o : BitOrder), expand b o = expand b' o → b = b') ∧
    (∀ (amps : List Amplitude) (o : BitOrder), amps.length = 8 → ∃ b : Byte, expand b o = amps)

/-! ## The delta_encoder -/

/-- R62, R16: NEW is always accepted, sets `ACC` to 0 and leaves `CFG.ORDER`. That it empties the output stream is the model's
deduction from R28 and R100 (log entry 13; R62 does not mention the stream). Its word is `1`. No other word than that of NEW,
or of CORE_RESET which performs NEW, gives `ACC` a value after power-on. -/
def Obligations.NewResult : Prop :=
  (∀ s : State, exec .new s = .next { s with acc := some 0#9, result := .nothing, output := [] }) ∧
    decode (.rst 0b1#1) = .ok .new ∧
    (∀ s t : State, s.acc = none → step s = .next t → t.acc ≠ none →
      ∃ rest, s.requests = encode .new :: rest ∨ ∃ o, s.requests = encode (.coreReset o) :: rest)

/-- R64: from an `ACC` of 0 to 254, ENCODE_NEXT.P completes, adds 1 with 254 going to 0, returns `0x00` and changes nothing
else; before the first reset it is refused. Its word is `01`. -/
def Obligations.EncodeNextPResult : Prop :=
  (∀ (s : State) (a : AccWord), s.acc = some a → 0 ≤ a.toInt → a.toInt ≤ 254 →
      exec .encodeNextP s =
        .next { s with acc := some (if a = 254#9 then 0#9 else a + 1#9), result := .samples [0x00#8] }) ∧
    (∀ s : State, s.acc = none → exec .encodeNextP s = .refused .notReset) ∧
    decode (.ampIn 0b01#2) = .ok .encodeNextP

/-- R65: from an `ACC` of 0 to 254, ENCODE_NEXT.M completes, subtracts 1 with 0 going to 254, returns `0x00` and changes
nothing else; before the first reset it is refused. Its word is `11`. -/
def Obligations.EncodeNextMResult : Prop :=
  (∀ (s : State) (a : AccWord), s.acc = some a → 0 ≤ a.toInt → a.toInt ≤ 254 →
      exec .encodeNextM s =
        .next { s with acc := some (if a = 0#9 then 254#9 else a - 1#9), result := .samples [0x00#8] }) ∧
    (∀ s : State, s.acc = none → exec .encodeNextM s = .refused .notReset) ∧
    decode (.ampIn 0b11#2) = .ok .encodeNextM

/-- R63, R67, R69: in every state where `ACC` holds a value, reachable or not, both amplitudes complete with the flooring
remainder of the exact sum and the low byte of its product with `SCALE`. -/
def Obligations.EncodeNextAnyAcc : Prop :=
  ∀ (s : State) (a : AccWord), s.acc = some a →
    exec .encodeNextP s =
        .next { s with acc := some (BitVec.ofInt 9 ((a.toInt + 1) % 255)),
                       result := .samples [BitVec.ofInt 8 ((a.toInt + 1) % 255 * 8388608)] } ∧
      exec .encodeNextM s =
        .next { s with acc := some (BitVec.ofInt 9 ((a.toInt - 1) % 255)),
                       result := .samples [BitVec.ofInt 8 ((a.toInt - 1) % 255 * 8388608)] }

/-- R66: the alternative `MOD_SEM = TRUNC`, for every `SCALE`: its closed forms; its accumulator stays in the residue class of
the flooring one, which is the representative in 0 to 254; the trajectory of the source's scenario; a sum of -1 reached directly
leaves -1, while its residue reached by 254 steps of +1 leaves 254; and on this hardware the samples of both are the same. -/
def Obligations.TruncAlternative : Prop :=
  (∀ (scale : Nat) (a : AccWord), -254 ≤ a.toInt → a.toInt ≤ 254 →
      (encodeNext ⟨.trunc, scale⟩ a .plus).1 = (if a.toInt = 254 then 0#9 else a + 1#9) ∧
        (encodeNext ⟨.trunc, scale⟩ a .minus).1 = (if a.toInt = -254 then 0#9 else a - 1#9)) ∧
    (∀ (scale scale' : Nat) (amps : List Amplitude) (t f : AccWord), f.toInt = t.toInt % 255 →
      (encodeLanes ⟨.floor, scale⟩ f amps).1.toInt = (encodeLanes ⟨.trunc, scale'⟩ t amps).1.toInt % 255) ∧
    (∀ scale : Nat,
      ([1, 2, 3, 4, 5, 6, 7, 8].map fun k =>
          (encodeLanes ⟨.trunc, scale⟩ 0#9 ((expand 0x01#8 .littleEndianBits).take k)).1.toInt) =
        [1, 0, -1, -2, -3, -4, -5, -6]) ∧
    (∀ scale : Nat,
      (encodeLanes ⟨.trunc, scale⟩ 0#9 [.minus]).1.toInt = -1 ∧
        ∀ n : Nat, n ≤ 254 → (encodeLanes ⟨.trunc, scale⟩ 0#9 (List.replicate n .plus)).1.toInt = (n : Int)) ∧
    (∀ (a a' : AccWord) (amps : List Amplitude),
      (encodeLanes { hardware with modSem := .trunc } a amps).2 = (encodeLanes hardware a' amps).2)

/-- R68: the range of `ACC` is kept under each remainder, and in that range the sum fits every signed adder of nine bits or
more. -/
def Obligations.AccRangeKept : Prop :=
  ∀ (scale : Nat) (a : AccWord) (x : Amplitude),
    (0 ≤ a.toInt → a.toInt ≤ 254 →
        0 ≤ (encodeNext ⟨.floor, scale⟩ a x).1.toInt ∧ (encodeNext ⟨.floor, scale⟩ a x).1.toInt ≤ 254) ∧
      (-254 ≤ a.toInt → a.toInt ≤ 254 →
        -254 ≤ (encodeNext ⟨.trunc, scale⟩ a x).1.toInt ∧ (encodeNext ⟨.trunc, scale⟩ a x).1.toInt ≤ 254) ∧
      (-254 ≤ a.toInt → a.toInt ≤ 254 → ∀ w : Nat, 9 ≤ w →
        (BitVec.ofInt w a.toInt + BitVec.ofInt w (ampValue x)).toInt = a.toInt + ampValue x)

/-- R70: on this hardware every sample of every sequence of amplitudes is `0x00`, one sample an amplitude, under either
remainder; for any multiplier the sample depends on `SCALE` only through its low byte, and it is `0x00` for every accumulator
exactly when 256 divides `SCALE`. -/
def Obligations.EverySampleIsZero : Prop :=
  (∀ (m : ModSem) (acc : AccWord) (amps : List Amplitude),
      (encodeLanes { hardware with modSem := m } acc amps).2 = List.replicate amps.length 0x00#8) ∧
    (∀ (scale : Nat) (acc : Int), quantise scale acc = quantise (scale % 256) acc) ∧
    (∀ scale : Nat, (∀ acc : Int, quantise scale acc = 0x00#8) ↔ 256 ∣ scale)

/-- R71: a product register of any width of eight bits or more gives the same sample, and in a signed 32-bit register no wrap
occurs for an accumulator of magnitude 254 or less. -/
def Obligations.ProductWidthUnobservable : Prop :=
  (∀ (w : Nat) (scale : Nat) (acc : Int), 8 ≤ w →
      (BitVec.ofInt w (acc * (scale : Int))).setWidth 8 = quantise scale acc) ∧
    (∀ acc : Int, -254 ≤ acc → acc ≤ 254 → (BitVec.ofInt 32 (acc * 8388608)).toInt = acc * 8388608)

/-- R72: the sample of a call is computed from the accumulator that the call leaves. -/
def Obligations.SampleFromUpdatedAcc : Prop :=
  (∀ (p : Params) (a : AccWord) (x : Amplitude),
      (encodeNext p a x).2 = quantise p.scale (encodeNext p a x).1.toInt) ∧
    (encodeNext ⟨.floor, 1⟩ 0#9 .plus).2 = 0x01#8

/-- R75: under FLOOR a sequence leaves the starting value plus the sum modulo 255, so its order does not matter; each sample
comes from the sum so far; 255 equal amplitudes return `ACC` to where it was; under TRUNC the sum gives the residue. -/
def Obligations.FloorSessionClosedForm : Prop :=
  (∀ (scale : Nat) (a : AccWord) (amps : List Amplitude), 0 ≤ a.toInt → a.toInt ≤ 254 →
      (encodeLanes ⟨.floor, scale⟩ a amps).1.toInt = (a.toInt + ampSum amps) % 255) ∧
    (∀ (scale : Nat) (a : AccWord) (amps amps' : List Amplitude), amps.Perm amps' →
      (encodeLanes ⟨.floor, scale⟩ a amps).1 = (encodeLanes ⟨.floor, scale⟩ a amps').1) ∧
    (∀ (scale : Nat) (a : AccWord) (amps : List Amplitude) (k : Nat), k < amps.length →
      (encodeLanes ⟨.floor, scale⟩ a amps).2[k]? =
        some (quantise scale ((a.toInt + ampSum (amps.take (k + 1))) % 255))) ∧
    (∀ (scale : Nat) (a : AccWord) (x : Amplitude), 0 ≤ a.toInt → a.toInt ≤ 254 →
      (encodeLanes ⟨.floor, scale⟩ a (List.replicate 255 x)).1 = a) ∧
    (∀ (scale : Nat) (amps : List Amplitude),
      (encodeLanes ⟨.trunc, scale⟩ 0#9 amps).1.toInt % 255 = ampSum amps % 255)

/-- R64, R65, R70: the source's scenario (spec/95_test_vectors.md E5): the accumulator after each of the first `k` amplitudes
of `0x01`, and eight samples `0x00`. -/
def Obligations.SourceScenario : Prop :=
  expand 0x01#8 .littleEndianBits = [.plus, .minus, .minus, .minus, .minus, .minus, .minus, .minus] ∧
    ([1, 2, 3, 4, 5, 6, 7, 8].map fun k =>
        (encodeLanes hardware 0#9 ((expand 0x01#8 .littleEndianBits).take k)).1.toNat) =
      [1, 0, 254, 253, 252, 251, 250, 249] ∧
    (encodeLanes hardware 0#9 (expand 0x01#8 .littleEndianBits)).2 = List.replicate 8 0x00#8

/-! ## dpcm_core -/

/-- R77: CORE_RESET is always accepted; it sets `CFG.ORDER` to its operand and `ACC` to 0, and the session's output stream
starts empty. Its word is `1` followed by the order bit. It is the only way to change `CFG.ORDER` (R16, R36). -/
def Obligations.CoreResetResult : Prop :=
  (∀ (o : BitOrder) (s : State),
      exec (.coreReset o) s = .next { s with acc := some 0#9, order := some o, result := .nothing, output := [] }) ∧
    decode (.coreRst 0b10#2) = .ok (.coreReset .littleEndianBits) ∧
    decode (.coreRst 0b11#2) = .ok (.coreReset .bigEndianBits) ∧
    (∀ s t : State, step s = .next t →
      t.order = s.order ∨ ∃ o rest, s.requests = encode (.coreReset o) :: rest ∧ t.order = some o)

/-- R78: PUSH_BYTE completes wherever both registers hold a value; it adds `2 * popcount - 8` to `ACC` modulo 255 under either
bit order, returns eight samples `0x00`, and changes nothing else. While either register holds no value it is refused. Its
word is the byte. -/
def Obligations.PushByteResult : Prop :=
  (∀ (b : Byte) (s : State) (a : AccWord) (o : BitOrder), s.acc = some a → s.order = some o →
      exec (.pushByte b) s =
        .next { s with acc := some (BitVec.ofInt 9 ((a.toInt + 2 * (popcount b : Int) - 8) % 255)),
                       result := .samples (List.replicate 8 0x00#8) }) ∧
    (∀ (b : Byte) (s : State), s.acc = none ∨ s.order = none → exec (.pushByte b) s = .refused .notReset) ∧
    (∀ b : Byte, decode (.byteIn b) = .ok (.pushByte b))

/-- R30, R78, R79: for all parameters PUSH_BYTE is ENCODE_NEXT iterated over the amplitudes of the byte, lane 0 first: its
state is the last one and its samples are theirs in that order. On this hardware one step with the byte does what the host
does by presenting the eight amplitude codes one after another, where none of the eight writes fails; only what the output
port shows at the end differs. -/
def Obligations.PushByteIsEightEncodes : Prop :=
  (∀ (p : Params) (b : Byte) (s : State) (o : BitOrder), s.acc.isSome = true → s.order = some o →
      ∃ t ys, encodeEach p (expand b o) s = some (t, ys) ∧ ys.length = 8 ∧
        pushByteInto p b s = .next { t with result := .samples ys }) ∧
    (∀ (b : Byte) (s : State), exec (.pushByte b) s = pushByteInto hardware b s) ∧
    (∀ (b : Byte) (s : State) (o : BitOrder),
      s.acc.isSome = true → s.order = some o → .writeError ∉ s.sinkReplies.take 8 →
        ∃ t : State,
          core.run 8 { s with requests := (expand b o).map (fun x => .ampIn (ampCode x)) } = .next t ∧
            step { s with requests := [.byteIn b] } =
              .next { t with result := .samples (List.replicate 8 0x00#8) })

/-- R36, R78, R83: PUSH_BYTE expands by the value of `CFG.ORDER`: under FLOOR and every `SCALE`, sample `k` is that of the
starting `ACC` plus the first `k + 1` amplitudes of the byte in that order; and at `SCALE = 1` the byte 0x0F from 254 gives
different samples under the two orders (spec/95_test_vectors.md section 2.7). -/
def Obligations.PushByteReadsOrder : Prop :=
  (∀ (p : Params) (b : Byte) (s : State) (a : AccWord) (o : BitOrder),
      p.modSem = .floor → s.acc = some a → s.order = some o →
        ∃ ys : List Sample,
          pushByteInto p b s =
              .next { s with acc := some (BitVec.ofInt 9 ((a.toInt + ampSum (expand b o)) % 255)),
                             result := .samples ys } ∧
            ys.length = 8 ∧
            ∀ k < 8, ys[k]? = some (quantise p.scale ((a.toInt + ampSum ((expand b o).take (k + 1))) % 255))) ∧
    (∀ s : State, s.acc = some 254#9 →
      pushByteInto ⟨.floor, 1⟩ 0x0F#8 { s with order := some .littleEndianBits } =
          .next { s with acc := some 254#9, order := some .littleEndianBits,
                         result := .samples [0x00#8, 0x01#8, 0x02#8, 0x03#8, 0x02#8, 0x01#8, 0x00#8, 0xFE#8] } ∧
        pushByteInto ⟨.floor, 1⟩ 0x0F#8 { s with order := some .bigEndianBits } =
          .next { s with acc := some 254#9, order := some .bigEndianBits,
                         result := .samples [0xFD#8, 0xFC#8, 0xFB#8, 0xFA#8, 0xFB#8, 0xFC#8, 0xFD#8, 0xFE#8] })

/-! ## The whole machine -/

/-- R22, R100: what State.reset holds. `CFG.ORDER` is the model's choice of the operand (log entry 7), no rule of the spec. -/
def Obligations.ResetState : Prop :=
  State.reset.acc = some 0#9 ∧ State.reset.order = some .littleEndianBits ∧
    State.reset.output = [] ∧ State.reset.result = .nothing ∧
    exec (.coreReset .littleEndianBits) State.powerOn = .next State.reset

/-- R23, R103: at power-on the registers hold no value; ENCODE_NEXT and PUSH_BYTE are refused, EXPAND runs as ever,
ENCODE_NEXT runs after NEW, and PUSH_BYTE still does not, since NEW gives `CFG.ORDER` no value: that last
clause is the model's deduction from R16 and R78 (log entry 8), and R97 refuses PUSH_BYTE before the first CORE_RESET. -/
def Obligations.PowerOn : Prop :=
  State.powerOn.acc = none ∧ State.powerOn.order = none ∧
    exec .encodeNextP State.powerOn = .refused .notReset ∧
    exec .encodeNextM State.powerOn = .refused .notReset ∧
    (∀ b, exec (.pushByte b) State.powerOn = .refused .notReset) ∧
    (∀ b, exec (.expandLE b) State.powerOn =
      .next { State.powerOn with result := .ampBus (expandWord b .littleEndianBits) }) ∧
    (∀ b, exec (.expandBE b) State.powerOn =
      .next { State.powerOn with result := .ampBus (expandWord b .bigEndianBits) }) ∧
    ∃ t, exec .new State.powerOn = .next t ∧ (∃ u, exec .encodeNextP t = .next u ∧ u.acc = some 1#9) ∧
      ∀ b, exec (.pushByte b) t = .refused .notReset

/-- R35, R44: when the word the host presents selects an operation, the step is that operation in the state with the word
taken, followed by the host passing the samples on. -/
def Obligations.StepRunsDecoded : Prop :=
  ∀ (s : State) (r : Request) (rest : List Request) (i : Instr), s.requests = r :: rest → decode r = .ok i →
    step s = deliverOutcome (exec i { s with requests := rest })

/-- R29, R31: where none of the writes of an operation's samples fails, whatever the sink answers later, the host appends every
sample in the order returned and the later answers are kept; an operation without samples appends none. -/
def Obligations.DeliverAppendsSamples : Prop :=
  (∀ (s : State) (ys : List Sample), s.result = .samples ys → .writeError ∉ s.sinkReplies.take ys.length →
      deliver s = { s with output := s.output ++ ys, sinkReplies := s.sinkReplies.drop ys.length }) ∧
    (∀ s : State, (∀ ys, s.result ≠ .samples ys) → deliver s = s)

/-- R44: an idle reset word selects no operation: it is taken and nothing else changes. -/
def Obligations.IdleWordChangesNothing : Prop :=
  ∀ (s : State) (r : Request) (rest : List Request), s.requests = r :: rest → decode r = .error .idle →
    step s = .next { s with requests := rest }

/-- The model's convention (log entries 9 and 10): the word placed by withFetchWord is the next one the machine takes. -/
def Obligations.FetchWordRunsNext : Prop :=
  ∀ (s : State) (nbits w : Nat) (r : Request) (i : Instr), tableRequest nbits w = some r → decode r = .ok i →
    step (s.withFetchWord nbits w) = deliverOutcome (exec i s)

/-- R97, with the order of R63: exactly when a step is refused, and by which name. -/
def Obligations.RefusalsExactly : Prop :=
  ∀ (s : State) (why : Refusal),
    step s = .refused why ↔
      ∃ r rest, s.requests = r :: rest ∧
        ((why = .notReset ∧
            (((∃ c, r = .ampIn c) ∧ s.acc = none) ∨ ((∃ b, r = .byteIn b) ∧ (s.acc = none ∨ s.order = none)))) ∨
          (why = .reservedAmplitude ∧ s.acc ≠ none ∧ (r = .ampIn 0b00#2 ∨ r = .ampIn 0b10#2)))

/-- R86, R96, R113: once both registers hold a value every operation completes, at all times, and both still hold a value. -/
def Obligations.ReadyNeverRefused : Prop :=
  ∀ (i : Instr) (s : State), Ready s → ∃ t, exec i s = .next t ∧ Ready t

/-- R15, R31, R56: a step in which the host presents nothing, or presents a word to the bit_expander, leaves both registers
as they were. -/
def Obligations.RegistersNeedTheirPorts : Prop :=
  ∀ s t : State, step s = .next t → (s.requests = [] ∨ ∃ x rest, s.requests = .req x :: rest) →
    t.acc = s.acc ∧ t.order = s.order

/-- R19, R21, R74: what an operation does to the registers and shows at its port depends on the two registers alone, and it
never touches the host's side. -/
def Obligations.OperationsReadOnlyRegisters : Prop :=
  ∀ (i : Instr) (s s' t : State), s.acc = s'.acc → s.order = s'.order → exec i s = .next t →
    (∃ t', exec i s' = .next t' ∧ t'.acc = t.acc ∧ t'.order = t.order ∧ t'.result = t.result) ∧
      t.requests = s.requests ∧ t.input = s.input ∧ t.sinkReplies = s.sinkReplies ∧ t.host = s.host

/-- R102, R28, R100, R16: a CORE_RESET leaves a state that does not depend on the registers, the port or the output stream
before it; nor does a NEW, but for `CFG.ORDER`. That NEW empties the output stream as CORE_RESET does is the model's deduction
from R28 and R100 (log entry 13); that it leaves `CFG.ORDER`, the proviso R102 does not mention, is R16 read over the one
machine of log entry 14. -/
def Obligations.ResetForgetsThePast : Prop :=
  ∀ (o : BitOrder) (s s' : State),
    s.requests = s'.requests → s.input = s'.input → s.sinkReplies = s'.sinkReplies → s.host = s'.host →
      exec (.coreReset o) s = exec (.coreReset o) s' ∧
        (s.order = s'.order → exec .new s = exec .new s')

/-- The invariant holds at State.reset and at power-on. -/
def Obligations.InvAtReset : Prop := Inv State.reset ∧ Inv State.powerOn

/-- R14, R30, R41, R58, R68, R70: every step keeps the invariant, whatever the host presents and whatever the streams answer. -/
def Obligations.StepKeepsInv : Prop := ∀ s t : State, Inv s → step s = .next t → Inv t

/-! ## The reference host and the errors of the environment -/

/-- R80, R97, R113: a run of the reference host is never refused and never stops short: every step answers a next state of
such a run. -/
def Obligations.ReferenceHostNeverRefused : Prop :=
  ∀ s : State, RefHostRun s → ∃ t, step s = .next t ∧ RefHostRun t

/-- R80 to R85: the function a session of the reference host computes, for every finite input and either bit order, where none
of its writes fails: `ACC` ends at `2 * P - 8 * n` modulo 255, and the output stream is `8 * n` samples `0x00`. The number of
steps, `2 * n + 3`, is the model's choice (log entry 17: opening, each `InRead` and stopping are steps of their own). -/
def Obligations.SessionFunction : Prop :=
  ∀ (bs : List Byte) (o : BitOrder) (s : State),
    s.host = .opening o true → s.requests = [] → s.input = ⟨bs.map .byte, .ends⟩ →
    .writeError ∉ s.sinkReplies.take (8 * bs.length) →
      core.run (2 * bs.length + 3) s =
        .next { acc := some (BitVec.ofInt 9 ((2 * (totalOnes bs : Int) - 8 * (bs.length : Int)) % 255))
                order := some o
                result := if bs = [] then .nothing else .samples (List.replicate 8 0x00#8)
                requests := []
                input := ⟨[], .ends⟩
                sinkReplies := s.sinkReplies.drop (8 * bs.length)
                output := List.replicate (8 * bs.length) 0x00#8
                host := .stopped .endOfStream }

/-- R26, R83, R99: over an unbounded input stream a session never ends: after every number of steps the host has not stopped,
and after the listed bytes and any `n` further ones all of them have been encoded in order. No write fails here. The bytes
past the listed ones are free (log entry 15), and the number of steps is the model's choice (log entry 17). -/
def Obligations.UnboundedSessionNeverEnds : Prop :=
  ∀ (bs : List Byte) (first : Nat) (o : BitOrder) (s : State),
    s.host = .opening o true → s.requests = [] → s.input = ⟨bs.map .byte, .unbounded first⟩ → .writeError ∉ s.sinkReplies →
      (∀ k : Nat, ∃ t : State, core.run k s = .next t ∧ ∀ why, t.host ≠ .stopped why) ∧
        ∀ n : Nat, ∃ t : State,
          core.run (2 * (bs.length + n) + 2) s = .next t ∧
            t.host = .running ∧ t.requests = [] ∧ t.order = some o ∧ t.input = ⟨[], .unbounded (first + n)⟩ ∧
            t.acc = some (BitVec.ofInt 9
              ((2 * (totalOnes (bs ++ (List.range n).map (fun j => Config.streamByte (first + j))) : Int)
                - 8 * ((bs.length + n : Nat) : Int)) % 255)) ∧
            t.output = List.replicate (8 * (bs.length + n)) 0x00#8

/-- R88: an input fault after some bytes stops the host at once; registers and output stream are as the last completed
PUSH_BYTE left them, so every byte before the fault has its eight samples there, and nothing happens ever after. No write
fails before the fault. The number of steps, `2 * n + 3`, is the model's choice (log entry 17). -/
def Obligations.SessionReadError : Prop :=
  ∀ (bs : List Byte) (later : List StreamItem) (tail : StreamTail) (o : BitOrder) (s : State),
    s.host = .opening o true → s.requests = [] → s.input = ⟨bs.map .byte ++ .ioFault :: later, tail⟩ →
    .writeError ∉ s.sinkReplies.take (8 * bs.length) →
      ∃ t : State, core.run (2 * bs.length + 3) s = .next t ∧
        t.host = .stopped .inputReadError ∧ t.requests = [] ∧ t.order = some o ∧
        t.acc = some (BitVec.ofInt 9 ((2 * (totalOnes bs : Int) - 8 * (bs.length : Int)) % 255)) ∧
        t.output = List.replicate (8 * bs.length) 0x00#8 ∧
        ∀ k, core.run k t = .next t

/-- R90, R91, R94: when the write of sample `k` of a byte fails, the samples before it are in the output stream, that one and
the later ones are lost, and no further operation of the session is issued; where the host's words hold no new session,
nothing happens ever after. That a host's words up to its next NEW or CORE_RESET are dropped, and those from there on kept, is
the model's deduction (log entry 18). Nothing is said of `ACC`. -/
def Obligations.SinkWriteErrorLosesTheRest : Prop :=
  ∀ (b : Byte) (s : State) (rest : List Request) (k : Nat) (later : List WriteResult),
    Ready s → s.requests = .byteIn b :: rest → k < 8 →
      s.sinkReplies = List.replicate k .ok ++ .writeError :: later →
        ∃ t : State, step s = .next t ∧ t.output = s.output ++ List.replicate k 0x00#8 ∧
          t.host = .stopped .sinkWriteError ∧ t.order = s.order ∧ t.sinkReplies = later ∧
          t.requests = rest.dropWhile (fun r => !startsSession r) ∧
          ((∀ r ∈ rest, startsSession r = false) → ∀ n, core.run n t = .next t)

/-- R89, R105: where the sink cannot be opened, the host stops and the output stream is empty. That no operation at all is
issued, where R89 allows at most a CORE_RESET, is the model's choice (log entry 17: the sink is opened first). -/
def Obligations.SinkOpenErrorIssuesNothing : Prop :=
  ∀ (s : State) (o : BitOrder), s.host = .opening o false → s.requests = [] →
    step s = .next { s with output := [], host := .stopped .sinkOpenError }

/-- R31, R91, R99: with no word to present, a host that has stopped, or that is direct, never changes anything again. -/
def Obligations.StoppedIsFinal : Prop :=
  ∀ (s : State) (k : Nat), s.requests = [] → (s.host = .direct ∨ ∃ why, s.host = .stopped why) →
    core.run k s = .next s
end

