-- ==== Sys2Proof/Laws/State.lean ====
section
/-! SUPPORT. One lemma per field for each named update of the state, so that no later proof unfolds a record update. -/

namespace Sys2Proof.Machine

@[simp] theorem startSession_acc (s : State) : (startSession s).acc = some 0#9 := rfl
@[simp] theorem startSession_order (s : State) : (startSession s).order = s.order := rfl
@[simp] theorem startSession_result (s : State) : (startSession s).result = .nothing := rfl
@[simp] theorem startSession_requests (s : State) : (startSession s).requests = s.requests := rfl
@[simp] theorem startSession_input (s : State) : (startSession s).input = s.input := rfl
@[simp] theorem startSession_sinkReplies (s : State) : (startSession s).sinkReplies = s.sinkReplies := rfl
@[simp] theorem startSession_output (s : State) : (startSession s).output = [] := rfl
@[simp] theorem startSession_host (s : State) : (startSession s).host = s.host := rfl

@[simp] theorem expandInto_acc (b : Byte) (o : BitOrder) (s : State) : (expandInto b o s).acc = s.acc := rfl
@[simp] theorem expandInto_order (b : Byte) (o : BitOrder) (s : State) : (expandInto b o s).order = s.order := rfl
@[simp] theorem expandInto_result (b : Byte) (o : BitOrder) (s : State) :
    (expandInto b o s).result = .ampBus (expandWord b o) := rfl
@[simp] theorem expandInto_requests (b : Byte) (o : BitOrder) (s : State) :
    (expandInto b o s).requests = s.requests := rfl
@[simp] theorem expandInto_input (b : Byte) (o : BitOrder) (s : State) : (expandInto b o s).input = s.input := rfl
@[simp] theorem expandInto_sinkReplies (b : Byte) (o : BitOrder) (s : State) :
    (expandInto b o s).sinkReplies = s.sinkReplies := rfl
@[simp] theorem expandInto_output (b : Byte) (o : BitOrder) (s : State) : (expandInto b o s).output = s.output := rfl
@[simp] theorem expandInto_host (b : Byte) (o : BitOrder) (s : State) : (expandInto b o s).host = s.host := rfl

@[simp] theorem stopHost_acc (why : StopReason) (s : State) : (stopHost why s).acc = s.acc := rfl
@[simp] theorem stopHost_order (why : StopReason) (s : State) : (stopHost why s).order = s.order := rfl
@[simp] theorem stopHost_result (why : StopReason) (s : State) : (stopHost why s).result = s.result := rfl
@[simp] theorem stopHost_requests (why : StopReason) (s : State) : 
    (stopHost why s).requests = s.requests.dropWhile (fun r => !startsSession r) := rfl
@[simp] theorem stopHost_input (why : StopReason) (s : State) : (stopHost why s).input = s.input := rfl
@[simp] theorem stopHost_sinkReplies (why : StopReason) (s : State) : (stopHost why s).sinkReplies = s.sinkReplies := rfl
@[simp] theorem stopHost_output (why : StopReason) (s : State) : (stopHost why s).output = s.output := rfl
@[simp] theorem stopHost_host (why : StopReason) (s : State) : (stopHost why s).host = .stopped why := rfl

end Sys2Proof.Machine
end

