-- ==== Sys2Proof/Laws/Driver.lean ====
section
/-! SUPPORT. What the host's side can do, said once: it never touches the registers or the port, it appends some leading part
of the samples, and it either goes on as before or stops (spec/20_memory.md rule R29, spec/60_exceptions.md rule R90). -/

namespace Sys2Proof.Machine

/-- The words that start a session are those of NEW and of CORE_RESET (R94, R102). -/
theorem startsSession_iff (r : Request) :
    startsSession r = true ↔ r = encode .new ∨ ∃ o, r = encode (.coreReset o) := by
  have two : ∀ o : BitOrder, encode (.coreReset o) = .coreRst 0b10#2 ∨ encode (.coreReset o) = .coreRst 0b11#2 := by
    intro o; cases o <;> simp [encode, orderCode]
  constructor
  · intro h
    cases r with
    | req _ => cases h
    | rst w => exact .inl (by revert h; revert w; decide)
    | ampIn _ => cases h
    | coreRst c =>
      refine .inr ⟨orderOfBit (c.getLsbD 0), ?_⟩
      revert h; revert c; decide
    | byteIn _ => cases h
  · rintro (rfl | ⟨o, rfl⟩)
    · rfl
    · rcases two o with h | h <;> rw [h] <;> rfl

/-- Everything `inRead` can do: take a listed element, take a byte of an unbounded stream, or find the end. -/
theorem inRead_cases (i : InputStream) :
    (∃ b rest, i.items = .byte b :: rest ∧ inRead i = (.byte b, { i with items := rest })) ∨
      (∃ rest, i.items = .ioFault :: rest ∧ inRead i = (.readError, { i with items := rest })) ∨
      (i = ⟨[], .ends⟩ ∧ inRead i = (.eos, i)) ∨
      ∃ n, i = ⟨[], .unbounded n⟩ ∧ inRead i = (.byte (Config.streamByte n), ⟨[], .unbounded (n + 1)⟩) := by
  match i with
  | ⟨.byte b :: rest, tail⟩ => exact .inl ⟨b, rest, rfl, rfl⟩
  | ⟨.ioFault :: rest, tail⟩ => exact .inr (.inl ⟨rest, rfl, rfl⟩)
  | ⟨[], .ends⟩ => exact .inr (.inr (.inl ⟨rfl, rfl⟩))
  | ⟨[], .unbounded n⟩ => exact .inr (.inr (.inr ⟨n, rfl, rfl⟩))

/-- Everything `writeAll` can do: all samples appended and the host goes on, or the first `k` appended and it stops. -/
theorem writeAll_cases (ys : List Sample) (s : State) :
    (∃ replies, writeAll ys s = { s with output := s.output ++ ys, sinkReplies := replies }) ∨
      ∃ replies, ∃ k < ys.length, writeAll ys s =
        stopHost .sinkWriteError { s with output := s.output ++ ys.take k, sinkReplies := replies } := by
  induction ys generalizing s with
  | nil => exact .inl ⟨s.sinkReplies, by simp [writeAll]⟩
  | cons y ys ih =>
    obtain ⟨acc, order, result, requests, input, replies, output, host⟩ := s
    match replies with
    | [] =>
      rcases ih ⟨acc, order, result, requests, input, [], output ++ [y], host⟩ with ⟨r, h⟩ | ⟨r, k, hk, h⟩
      · exact .inl ⟨r, by simpa [writeAll, outWrite] using h⟩
      · exact .inr ⟨r, k + 1, by simp; omega, by simpa [writeAll, outWrite] using h⟩
    | .ok :: replies =>
      rcases ih ⟨acc, order, result, requests, input, replies, output ++ [y], host⟩ with ⟨r, h⟩ | ⟨r, k, hk, h⟩
      · exact .inl ⟨r, by simpa [writeAll, outWrite] using h⟩
      · exact .inr ⟨r, k + 1, by simp; omega, by simpa [writeAll, outWrite] using h⟩
    | .writeError :: replies =>
      exact .inr ⟨replies, 0, by simp, by simp [writeAll, outWrite]⟩

theorem deliver_samples {s : State} {ys : List Sample} (h : s.result = .samples ys) : deliver s = writeAll ys s := by
  simp [deliver, h]

theorem deliver_quiet {s : State} (h : ∀ ys, s.result ≠ .samples ys) : deliver s = s := by
  unfold deliver
  split
  · exact absurd ‹_› (h _)
  · rfl
  · rfl

/-- Passing samples on leaves the registers, the port and the input stream as they were. -/
theorem deliver_frame (s : State) :
    (deliver s).acc = s.acc ∧ (deliver s).order = s.order ∧ (deliver s).result = s.result ∧
      (deliver s).input = s.input := by
  by_cases h : ∃ ys, s.result = .samples ys
  · obtain ⟨ys, h⟩ := h
    rw [deliver_samples h]
    rcases writeAll_cases ys s with ⟨r, e⟩ | ⟨r, k, -, e⟩ <;> simp [e]
  · rw [deliver_quiet (fun ys e => h ⟨ys, e⟩)]
    exact ⟨rfl, rfl, rfl, rfl⟩

/-- The host's own move leaves the registers and the port as they were. -/
theorem hostMove_frame (s : State) :
    (hostMove s).acc = s.acc ∧ (hostMove s).order = s.order ∧ (hostMove s).result = s.result := by
  unfold hostMove
  split <;> try simp
  split <;> simp

/-- The host's own move keeps the output stream or, where the sink cannot be opened, leaves it empty. -/
theorem hostMove_output (s : State) : (hostMove s).output = s.output ∨ (hostMove s).output = [] := by
  unfold hostMove
  split <;> try simp
  split <;> simp

end Sys2Proof.Machine
end

