-- ==== Sys2Proof/Laws/Ops.lean ====
section
/-! SUPPORT. What the arithmetic of the delta_encoder can do, said once: the reduction fits the register, so the accumulator
reads back as the reduced integer (spec/41_delta_encoder.md rules R63 and R68). -/

namespace Sys2Proof.Machine

theorem reduce_floor (t : Int) : reduce .floor t = t % 255 := rfl

theorem reduce_trunc (t : Int) : reduce .trunc t = t.tmod 255 := rfl

theorem reduce_bounds (m : ModSem) (t : Int) : -254 ≤ reduce m t ∧ reduce m t ≤ 254 := by
  cases m with
  | floor => rw [reduce_floor]; omega
  | trunc =>
    rw [reduce_trunc]
    constructor
    · have := Int.lt_tmod_of_pos t (show (0 : Int) < 255 by decide); omega
    · have := Int.tmod_lt_of_pos t (show (0 : Int) < 255 by decide); omega

/-- An integer of the nine-bit range reads back from the register unchanged (R8). -/
theorem toInt_ofInt_nine {x : Int} (lo : -256 ≤ x) (hi : x ≤ 255) : (BitVec.ofInt 9 x).toInt = x := by
  rw [BitVec.toInt_ofInt]
  exact Int.bmod_eq_of_le (by norm_num; omega) (by norm_num; omega)

theorem encodeNext_acc (p : Params) (a : AccWord) (x : Amplitude) :
    (encodeNext p a x).1.toInt = reduce p.modSem (a.toInt + ampValue x) := by
  have h := reduce_bounds p.modSem (a.toInt + ampValue x)
  exact toInt_ofInt_nine (by omega) (by omega)

theorem encodeNext_sample (p : Params) (a : AccWord) (x : Amplitude) :
    (encodeNext p a x).2 = quantise p.scale (reduce p.modSem (a.toInt + ampValue x)) := rfl

@[simp] theorem encodeLanes_nil (p : Params) (a : AccWord) : encodeLanes p a [] = (a, []) := rfl

@[simp] theorem encodeLanes_cons_acc (p : Params) (a : AccWord) (x : Amplitude) (xs : List Amplitude) :
    (encodeLanes p a (x :: xs)).1 = (encodeLanes p (encodeNext p a x).1 xs).1 := rfl

@[simp] theorem encodeLanes_cons_samples (p : Params) (a : AccWord) (x : Amplitude) (xs : List Amplitude) :
    (encodeLanes p a (x :: xs)).2 = (encodeNext p a x).2 :: (encodeLanes p (encodeNext p a x).1 xs).2 := rfl

/-- One sample per amplitude (R84). -/
@[simp] theorem encodeLanes_samples_length (p : Params) (a : AccWord) (xs : List Amplitude) :
    (encodeLanes p a xs).2.length = xs.length := by
  induction xs generalizing a with
  | nil => rfl
  | cons x xs ih => simp [ih]

@[simp] theorem expand_length (b : Byte) (o : BitOrder) : (expand b o).length = 8 := rfl

/-- 256 divides `SCALE`, so the low byte of every product is zero (R70). -/
theorem quantise_hardware (acc : Int) : quantise hardware.scale acc = 0#8 := by
  have h : acc * ((8388608 : Nat) : Int) = (acc * 32768) * 256 := by push_cast; ring
  apply BitVec.eq_of_toNat_eq
  simp only [quantise, low8, hardware, h, BitVec.toNat_ofInt]
  simp [Int.mul_emod_left]

end Sys2Proof.Machine
end

