-- ==== Sys2Proof/Laws/PerInstr.lean ====
section
/-! SUPPORT. One lemma per constructor of Instr: the word of an operation is one that selects an operation, never an idle or
a reserved word (spec/30_encoding.md rules R44, R47, R48). -/

namespace Sys2Proof.Laws.EncodesWellFormed

def Statement (i : Instr) : Prop := i.wellFormed = true ∧ (encode i).wellFormed = true

theorem expandLE (b : Byte) : Statement (.expandLE b) := ⟨rfl, rfl⟩
theorem expandBE (b : Byte) : Statement (.expandBE b) := ⟨rfl, rfl⟩
theorem new : Statement .new := ⟨rfl, rfl⟩
theorem encodeNextP : Statement .encodeNextP := ⟨rfl, rfl⟩
theorem encodeNextM : Statement .encodeNextM := ⟨rfl, rfl⟩
theorem coreReset (o : BitOrder) : Statement (.coreReset o) := by cases o <;> exact ⟨rfl, rfl⟩
theorem pushByte (b : Byte) : Statement (.pushByte b) := ⟨rfl, rfl⟩

end Sys2Proof.Laws.EncodesWellFormed
end

