-- ==== Sys2Proof/Laws/Step.lean ====
section
/-! SUPPORT. What an operation and a step can do, said once. -/

namespace Sys2Proof.Machine

/-- Everything an operation can do when it answers a next state: show an AMP16 word, start a session, or update `ACC` and
answer samples. -/
theorem exec_next_cases {i : Instr} {s t : State} (h : exec i s = .next t) :
    (∃ b o, t = { s with result := .ampBus (expandWord b o) }) ∨
      (i = .new ∧ t = startSession s) ∨
      (∃ o, i = .coreReset o ∧ t = { startSession s with order := some o }) ∨
      (∃ a x, s.acc = some a ∧ t = { s with acc := some (encodeNext hardware a x).1,
                                            result := .samples [(encodeNext hardware a x).2] }) ∨
      (∃ a o b, s.acc = some a ∧ s.order = some o ∧
        t = { s with acc := some (encodeLanes hardware a (expand b o)).1,
                     result := .samples (encodeLanes hardware a (expand b o)).2 }) := by
  cases i with
  | expandLE b => exact .inl ⟨b, .littleEndianBits, by simpa [exec, execExpandLE, expandInto] using h.symm⟩
  | expandBE b => exact .inl ⟨b, .bigEndianBits, by simpa [exec, execExpandBE, expandInto] using h.symm⟩
  | new => exact .inr (.inl ⟨rfl, by simpa [exec, execNew] using h.symm⟩)
  | coreReset o => exact .inr (.inr (.inl ⟨o, rfl, by simpa [exec, execCoreReset] using h.symm⟩))
  | encodeNextP =>
    simp only [exec, execEncodeNextP, encodeNextInto] at h
    split at h
    · cases h
    · exact .inr (.inr (.inr (.inl ⟨_, .plus, ‹_›, by simpa using h.symm⟩)))
  | encodeNextM =>
    simp only [exec, execEncodeNextM, encodeNextInto] at h
    split at h
    · cases h
    · exact .inr (.inr (.inr (.inl ⟨_, .minus, ‹_›, by simpa using h.symm⟩)))
  | pushByte b =>
    simp only [exec, execPushByte, pushByteInto] at h
    split at h
    · exact .inr (.inr (.inr (.inr ⟨_, _, b, ‹_›, ‹_›, by simpa using h.symm⟩)))
    · cases h

/-- A step with no word to present is the host's move. -/
theorem step_no_word {s : State} (h : s.requests = []) : step s = .next (hostMove s) := by
  simp [step, nextWord, h]

/-- A step with a word to present is that word's issue. -/
theorem step_word {s : State} {r : Request} {rest : List Request} (h : s.requests = r :: rest) :
    step s = issue r { s with requests := rest } := by
  simp [step, nextWord, h]

/-- Everything a step can do when it answers a next state: the host's move, one operation with its samples passed on, or an
idle word taken. -/
theorem step_next_cases {s t : State} (h : step s = .next t) :
    (s.requests = [] ∧ t = hostMove s) ∨
      (∃ r rest i u, s.requests = r :: rest ∧ decode r = .ok i ∧
        exec i { s with requests := rest } = .next u ∧ t = deliver u) ∨
      (∃ r rest, s.requests = r :: rest ∧ decode r = .error .idle ∧ t = { s with requests := rest }) := by
  cases hr : s.requests with
  | nil =>
    rw [step_no_word hr] at h
    cases h
    exact .inl ⟨rfl, rfl⟩
  | cons r rest =>
    rw [step_word hr] at h
    unfold issue at h
    split at h
    · rename_i i hi
      cases hu : exec i { s with requests := rest } with
      | next u => exact .inr (.inl ⟨r, rest, i, u, rfl, hi, hu, by simpa [hu, deliverOutcome] using h.symm⟩)
      | fault f => cases f
      | refused f => simp [hu, deliverOutcome] at h
    · rename_i e he
      unfold rejectWord at h
      split at h
      · exact .inr (.inr ⟨r, rest, rfl, he, by simpa using h.symm⟩)
      · cases h
      · cases h

/-- One step of a run. -/
theorem run_succ {s t : State} (h : step s = .next t) (k : Nat) : core.run (k + 1) s = core.run k t := by
  have h' : core.step s = .next t := h
  simp only [Host.Core.run, h']

/-- A run of `j + k` steps is `k` steps after `j`. -/
theorem run_add {s t : State} {j : Nat} (h : core.run j s = .next t) (k : Nat) :
    core.run (j + k) s = core.run k t := by
  induction j generalizing s with
  | zero =>
    cases h
    rw [Nat.zero_add]
  | succ j ih =>
    cases hs : step s with
    | next u =>
      rw [run_succ hs] at h
      rw [Nat.succ_add, run_succ hs]
      exact ih h
    | fault f => cases f
    | refused r =>
      have hs' : core.step s = .refused r := hs
      simp only [Host.Core.run, hs'] at h
      cases h

end Sys2Proof.Machine
end

