-- ==== Sys2Proof/Machine/Flags.lean ====
section
/-! DEFINITION. No flag computation: the hardware has no flag, condition code or predicate, and neither the wrap of `ACC` nor
the overflow of the product leaves a trace in any state (spec/10_state.md rule R18). This file holds no definition. -/
end

