-- ==== Sys2Proof/Tests/Slice0.lean ====
section
/-! SUPPORT. Small tests. Expected values come from spec/95_test_vectors.md or from a pattern of spec/30_encoding.md, as each
comment says; the witnesses show that the hypotheses of a statement can be met, at the ends of their ranges. -/

namespace Sys2Proof.Tests

open Sys2Proof Sys2Proof.Machine

/-- The next state of an outcome, if there is one. -/
def nextOf : Host.Outcome State Fault Refusal → Option State
  | .next s => some s
  | .fault _ => none
  | .refused _ => none

/-- The refusal of an outcome, if it is one. -/
def refusalOf : Host.Outcome State Fault Refusal → Option Refusal
  | .next _ => none
  | .fault _ => none
  | .refused r => some r

/-- A state with the two registers as given. -/
def at_ (acc : Nat) (order : BitOrder) : State :=
  { State.reset with acc := some (BitVec.ofNat 9 acc), order := some order }

/-- A state whose host presents the given words. -/
def asking (s : State) (rs : List Request) : State := { s with requests := rs }

def accAfter (i : Instr) (s : State) : Option AccWord := (nextOf (exec i s)).bind State.acc
def resultAfter (i : Instr) (s : State) : Option Result := (nextOf (exec i s)).map State.result

/-! ## Well-formedness: each check refuses an ill-formed term -/

-- R44 (idle words) and R47 (reserved codes)
theorem test_wellFormed_refuses_idle_rst : Request.wellFormed (.rst 0#1) = false := by decide
theorem test_wellFormed_refuses_reserved_amp :
    Request.wellFormed (.ampIn 0b00#2) = false ∧ Request.wellFormed (.ampIn 0b10#2) = false := by decide
theorem test_wellFormed_refuses_idle_coreRst :
    Request.wellFormed (.coreRst 0b00#2) = false ∧ Request.wellFormed (.coreRst 0b01#2) = false := by decide
theorem test_wellFormed_refuses_reserved_lane : AmpBus.wellFormed 0x5554#16 = false := by decide
theorem test_wellFormed_accepts :
    Request.wellFormed (.req 0x1FF#9) = true ∧ Request.wellFormed (.byteIn 0x00#8) = true ∧
      Instr.wellFormed (.pushByte 0xFF#8) = true ∧ AmpBus.wellFormed 0xFFFD#16 = true := by decide

/-! ## Decoding: words written out from the patterns of R44 -/

theorem test_decode_expandLE : decode (.req 0b010010110#9) = .ok (.expandLE 0x96#8) := by decide
theorem test_decode_expandBE : decode (.req 0b110010110#9) = .ok (.expandBE 0x96#8) := by decide
theorem test_decode_new : decode (.rst 0b1#1) = .ok .new := by decide
theorem test_decode_encodeNextP : decode (.ampIn 0b01#2) = .ok .encodeNextP := by decide
theorem test_decode_encodeNextM : decode (.ampIn 0b11#2) = .ok .encodeNextM := by decide
theorem test_decode_coreReset :
    decode (.coreRst 0b10#2) = .ok (.coreReset .littleEndianBits) ∧
      decode (.coreRst 0b11#2) = .ok (.coreReset .bigEndianBits) := by decide
theorem test_decode_pushByte : decode (.byteIn 0b01001000#8) = .ok (.pushByte 0x48#8) := by decide
theorem test_decode_rejects :
    decode (.ampIn 0b00#2) = .error .reservedAmplitude ∧ decode (.ampIn 0b10#2) = .error .reservedAmplitude ∧
      decode (.rst 0b0#1) = .error .idle ∧ decode (.coreRst 0b01#2) = .error .idle := by decide
-- R50, R10: the script line of an operation, its byte decimal
theorem test_script :
    (Instr.pushByte 0x48#8).script = "PUSH 72" ∧ (Instr.expandBE 0x01#8).script = "EXPAND 1, BE" := by decide

/-! ## Bare opcode-table words (log entry 10): one per row, in whole bytes and at the row's own width -/

theorem test_table_whole_bytes :
    decodeTableWord 16 0x000 = some (.expandLE 0x00#8) ∧ decodeTableWord 16 0x1A5 = some (.expandBE 0xA5#8) ∧
      decodeTableWord 8 0x1 = some .new ∧ decodeTableWord 8 0x3 = some .encodeNextM ∧
      decodeTableWord 8 0x2 = some (.coreReset .littleEndianBits) ∧ decodeTableWord 8 0x48 = some (.pushByte 0x48#8) := by
  decide
theorem test_table_own_width :
    decodeTableWord 9 0x012 = some (.expandLE 0x12#8) ∧ decodeTableWord 1 0x1 = some .new ∧
      decodeTableWord 2 0x1 = some .encodeNextP ∧ decodeTableWord 2 0x0 = none ∧ decodeTableWord 16 0x200 = none := by
  decide
theorem test_fetch_word_runs :
    (nextOf (step (State.reset.withFetchWord 2 0x3))).bind State.acc = some 254#9 ∧
      (nextOf (step (State.reset.withFetchWord 8 0x01))).map State.output = some [] ∧
      (nextOf (step (State.reset.withFetchWord 8 0x0F))).map State.output = some (List.replicate 8 0x00#8) := by decide

/-! ## Arithmetic (section 2.1, 2.5 and 2.6 of the vectors) -/

theorem test_fmod : fmod (-1) 255 = 254 ∧ fmod 255 255 = 0 ∧ fmod (-256) 255 = 254 ∧ fmod 256 255 = 1 := by decide
theorem test_tmod : tmod (-1) 255 = -1 ∧ tmod (-255) 255 = 0 ∧ tmod (-256) 255 = -1 ∧ tmod 256 255 = 1 := by decide
theorem test_low8 : low8 (-1) = 255#8 ∧ low8 256 = 0#8 ∧ low8 (-254) = 2#8 ∧ low8 2130706432 = 0#8 := by decide
theorem test_quantise :
    quantise 3 127 = 0x7D#8 ∧ quantise 255 127 = 0x81#8 ∧ quantise 8388609 (-254) = 0x02#8 ∧ quantise 8388608 254 = 0x00#8 := by
  decide
theorem test_trunc_encode :
    encodeNext ⟨.trunc, 1⟩ (BitVec.ofInt 9 (-254)) .minus = (0#9, 0x00#8) ∧
      encodeNext ⟨.trunc, 1⟩ 0#9 .minus = (BitVec.ofInt 9 (-1), 0xFF#8) := by decide
-- section 2.8, the row from -250
theorem test_trunc_lanes :
    encodeLanes ⟨.trunc, 1⟩ (BitVec.ofInt 9 (-250)) (expand 0x00#8 .littleEndianBits) =
      (BitVec.ofInt 9 (-3), [0x05#8, 0x04#8, 0x03#8, 0x02#8, 0x00#8, 0xFF#8, 0xFE#8, 0xFD#8]) := by decide
-- section 2.7, S1 samples of 0x0F from 254 under both orders
theorem test_floor_lanes_scale_one :
    (encodeLanes ⟨.floor, 1⟩ 254#9 (expand 0x0F#8 .littleEndianBits)).2 =
        [0x00#8, 0x01#8, 0x02#8, 0x03#8, 0x02#8, 0x01#8, 0x00#8, 0xFE#8] ∧
      (encodeLanes ⟨.floor, 1⟩ 254#9 (expand 0x0F#8 .bigEndianBits)).2 =
        [0xFD#8, 0xFC#8, 0xFB#8, 0xFA#8, 0xFB#8, 0xFC#8, 0xFD#8, 0xFE#8] := by decide

/-! ## Operations (sections 2.2 to 2.9) -/

theorem test_expandLE :
    resultAfter (.expandLE 0x12#8) State.powerOn = some (.ampBus 0xFDF7#16) ∧
      resultAfter (.expandLE 0x01#8) State.powerOn = some (.ampBus 0xFFFD#16) := by decide
theorem test_expandBE :
    resultAfter (.expandBE 0x12#8) State.reset = some (.ampBus 0xDF7F#16) ∧
      resultAfter (.expandBE 0x96#8) State.reset = some (.ampBus 0xD77D#16) := by decide
theorem test_new :
    accAfter .new (at_ 249 .bigEndianBits) = some 0#9 ∧ accAfter .new State.powerOn = some 0#9 := by decide
theorem test_encodeNextP :
    accAfter .encodeNextP (at_ 254 .littleEndianBits) = some 0#9 ∧
      accAfter .encodeNextP (at_ 127 .littleEndianBits) = some 128#9 := by decide
theorem test_encodeNextM :
    accAfter .encodeNextM (at_ 0 .littleEndianBits) = some 254#9 ∧
      resultAfter .encodeNextM (at_ 254 .littleEndianBits) = some (.samples [0x00#8]) := by decide
theorem test_encodeNext_refused :
    refusalOf (exec .encodeNextP State.powerOn) = some .notReset ∧
      refusalOf (step (asking State.reset [.ampIn 0b10#2])) = some .reservedAmplitude ∧
      refusalOf (step (asking State.powerOn [.ampIn 0b00#2])) = some .notReset := by decide
theorem test_coreReset :
    nextOf (exec (.coreReset .bigEndianBits) { at_ 249 .littleEndianBits with output := [0x00#8] }) =
      some (at_ 0 .bigEndianBits) := by decide
theorem test_pushByte :
    accAfter (.pushByte 0xFF#8) (at_ 250 .littleEndianBits) = some 3#9 ∧
      accAfter (.pushByte 0x00#8) (at_ 3 .bigEndianBits) = some 250#9 := by decide
theorem test_pushByte_refused :
    refusalOf (exec (.pushByte 0x01#8) State.powerOn) = some .notReset ∧
      refusalOf (exec (.pushByte 0x01#8) (startSession State.powerOn)) = some .notReset := by decide

/-! ## The environment -/

-- P8: the read error stops the host and leaves the registers
theorem test_read_error :
    nextOf (step { at_ 251 .littleEndianBits with input := ⟨[.ioFault], .ends⟩, host := .running }) =
      some { at_ 251 .littleEndianBits with host := .stopped .inputReadError } := by decide
-- R90: the failing sample and the later ones of its byte are lost
theorem test_write_error :
    (nextOf (step { asking State.reset [.byteIn 0x01#8, .byteIn 0x02#8] with
        sinkReplies := [.ok, .ok, .writeError] })).map (fun t => (t.output, t.requests, t.host)) =
      some ([0x00#8, 0x00#8], [], .stopped .sinkWriteError) := by decide
-- R90 with the first sample failing, and R94: the words of a new session stay
theorem test_write_error_first :
    (nextOf (step { asking State.reset [.byteIn 0x01#8, .byteIn 0x02#8, .coreRst 0b11#2, .byteIn 0x03#8] with
        sinkReplies := [.writeError] })).map (fun t => (t.output, t.requests, t.host)) =
      some ([], [.coreRst 0b11#2, .byteIn 0x03#8], .stopped .sinkWriteError) := by decide
-- R26: an unbounded stream gives a byte and goes on
theorem test_unbounded_goes_on :
    (hostMove { State.reset with input := ⟨[], .unbounded 4⟩, host := .running }).host = .running ∧
      (hostMove { State.reset with input := ⟨[], .unbounded 4⟩, host := .running }).input = ⟨[], .unbounded 5⟩ := by decide
theorem test_host_opens :
    (nextOf (step { State.powerOn with host := .opening .bigEndianBits true })).map State.requests =
      some [.coreRst 0b11#2] := by decide
theorem test_idle_word : nextOf (step (asking State.powerOn [.coreRst 0b01#2])) = some State.powerOn := by decide

/-! ## Witnesses: the hypotheses of the statements can be met together -/

theorem witness_DecodedWordIsEncoded : decode (.req 0x1FF#9) = .ok (.expandBE 0xFF#8) := by decide
theorem witness_NewResult :
    State.powerOn.acc = none ∧ ∃ t, step (asking State.powerOn [.rst 1#1]) = .next t ∧ t.acc ≠ none :=
  ⟨rfl, _, rfl, by decide⟩
theorem witness_EncodeNextPResult :
    (at_ 254 .littleEndianBits).acc = some 254#9 ∧ 0 ≤ (254#9).toInt ∧ (254#9).toInt ≤ 254 ∧ State.powerOn.acc = none := by
  decide
theorem witness_EncodeNextMResult :
    (at_ 0 .bigEndianBits).acc = some 0#9 ∧ 0 ≤ (0#9).toInt ∧ (0#9).toInt ≤ 254 ∧ State.powerOn.acc = none := by decide
theorem witness_EncodeNextAnyAcc : (at_ 256 .littleEndianBits).acc = some (BitVec.ofInt 9 (-256)) := by decide
theorem witness_TruncAlternative :
    -254 ≤ (BitVec.ofInt 9 (-254)).toInt ∧ (BitVec.ofInt 9 (-254)).toInt ≤ 254 ∧
      (254#9).toInt ≤ 254 ∧ (1#9).toInt = (BitVec.ofInt 9 (-254)).toInt % 255 := by decide
theorem witness_AccRangeKept :
    (0 ≤ (0#9).toInt ∧ (0#9).toInt ≤ 254) ∧ (-254 ≤ (BitVec.ofInt 9 (-254)).toInt ∧ (254#9).toInt ≤ 254) := by decide
theorem witness_FloorSessionClosedForm :
    0 ≤ (254#9).toInt ∧ (254#9).toInt ≤ 254 ∧ 7 < (expand 0x01#8 .littleEndianBits).length ∧
      (expand 0x01#8 .littleEndianBits).Perm (expand 0x80#8 .littleEndianBits) := by decide
theorem witness_AmplitudeRoundTrip :
    expand 0x18#8 .littleEndianBits = expand 0x18#8 .littleEndianBits ∧ (List.replicate 8 Amplitude.minus).length = 8 := by
  decide
theorem witness_CoreResetResult : ∃ t, step (asking State.reset [.coreRst 0b11#2]) = .next t := ⟨_, rfl⟩
theorem witness_PushByteResult :
    (at_ 254 .bigEndianBits).acc = some 254#9 ∧ (at_ 254 .bigEndianBits).order = some .bigEndianBits ∧
      (startSession State.powerOn).acc = some 0#9 ∧ (startSession State.powerOn).order = none := by decide
theorem witness_PushByteIsEightEncodes :
    (at_ 254 .bigEndianBits).acc.isSome = true ∧ (at_ 254 .bigEndianBits).order = some .bigEndianBits ∧
      (at_ 254 .bigEndianBits).sinkReplies = [] := by decide
theorem witness_PushByteIsEightEncodes_writes :
    WriteResult.writeError ∉ (List.replicate 8 WriteResult.ok ++ [WriteResult.writeError]).take 8 ∧
      WriteResult.writeError ∉ [WriteResult.ok].take 8 := by
  decide
-- section 2.7: the S1 samples of 0x0F from 254 differ under the two orders
theorem witness_PushByteReadsOrder :
    (⟨.floor, 1⟩ : Params).modSem = .floor ∧ (at_ 254 .bigEndianBits).acc = some 254#9 ∧
      (nextOf (pushByteInto ⟨.floor, 1⟩ 0x0F#8 (at_ 254 .littleEndianBits))).map State.result ≠
        (nextOf (pushByteInto ⟨.floor, 1⟩ 0x0F#8 (at_ 254 .bigEndianBits))).map State.result := by decide
theorem witness_StepRunsDecoded :
    (asking State.reset [.byteIn 0x01#8]).requests = .byteIn 0x01#8 :: [] ∧
      decode (.byteIn 0x01#8) = .ok (.pushByte 0x01#8) := by decide
theorem witness_DeliverAppendsSamples :
    let s : State := { State.reset with result := .samples [0x00#8], sinkReplies := [.ok, .writeError] }
    s.result = .samples [0x00#8] ∧ WriteResult.writeError ∉ s.sinkReplies.take [0x00#8].length ∧
      ∀ ys, State.reset.result ≠ .samples ys := ⟨rfl, by decide, fun _ h => nomatch h⟩
theorem witness_IdleWordChangesNothing :
    (asking State.reset [.rst 0#1]).requests = .rst 0#1 :: [] ∧ decode (.rst 0#1) = .error .idle := by decide
theorem witness_FetchWordRunsNext :
    tableRequest 16 0x1FF = some (.req 0x1FF#9) ∧ decode (.req 0x1FF#9) = .ok (.expandBE 0xFF#8) := by decide
theorem witness_ReadyNeverRefused : Ready (at_ 0 .littleEndianBits) := ⟨rfl, rfl⟩
theorem witness_RegistersNeedTheirPorts :
    (∃ t, step (asking State.powerOn [.req 0x1FF#9]) = .next t) ∧ (asking State.powerOn [.req 0x1FF#9]).requests = [.req 0x1FF#9] ∧
      (∃ t, step State.reset = .next t) ∧ State.reset.requests = [] := ⟨⟨_, rfl⟩, rfl, ⟨_, rfl⟩, rfl⟩
theorem witness_OperationsReadOnlyRegisters :
    State.reset.acc = ({ State.reset with output := [0x00#8], host := .running }).acc ∧
      State.reset.order = ({ State.reset with output := [0x00#8], host := .running }).order ∧
      ∃ t, exec (.pushByte 0x01#8) State.reset = .next t := ⟨rfl, rfl, _, rfl⟩
theorem witness_ResetForgetsThePast :
    State.powerOn.requests = (at_ 249 .bigEndianBits).requests ∧ State.powerOn.input = (at_ 249 .bigEndianBits).input ∧
      State.powerOn.sinkReplies = (at_ 249 .bigEndianBits).sinkReplies ∧ State.powerOn.host = (at_ 249 .bigEndianBits).host ∧
      (at_ 0 .bigEndianBits).order = (at_ 249 .bigEndianBits).order := by decide
theorem witness_StepKeepsInv :
    Inv (asking (at_ 254 .bigEndianBits) [.ampIn 0b01#2]) ∧
      ∃ t, step (asking (at_ 254 .bigEndianBits) [.ampIn 0b01#2]) = .next t :=
  ⟨{ accRange := by intro a h; cases h; decide
     orderHasAcc := fun _ => rfl
     busLegal := fun _ h => nomatch h
     samplesZero := fun _ h => nomatch h
     outputZero := fun _ h => nomatch h }, _, rfl⟩
theorem witness_ReferenceHostNeverRefused :
    RefHostRun { State.powerOn with host := .opening .bigEndianBits true } ∧
      RefHostRun { asking State.reset [.byteIn 0xFF#8] with host := .running } :=
  ⟨rfl, .inr ⟨⟨rfl, rfl⟩, .inr ⟨0xFF#8, rfl⟩⟩⟩
theorem witness_SessionFunction :
    let s : State := { State.powerOn with
      host := .opening .bigEndianBits true, input := ⟨[.byte 0x01#8, .byte 0x80#8], .ends⟩,
      sinkReplies := List.replicate 16 .ok ++ [.writeError] }
    s.host = .opening .bigEndianBits true ∧ s.requests = [] ∧ s.input = ⟨[0x01#8, 0x80#8].map .byte, .ends⟩ ∧
      WriteResult.writeError ∉ s.sinkReplies.take (8 * [0x01#8, 0x80#8].length) := by decide
theorem witness_UnboundedSessionNeverEnds :
    let s : State := { State.powerOn with host := .opening .bigEndianBits true, input := ⟨[.byte 0x01#8], .unbounded 0⟩ }
    s.host = .opening .bigEndianBits true ∧ s.requests = [] ∧ s.input = ⟨[0x01#8].map .byte, .unbounded 0⟩ ∧
      WriteResult.writeError ∉ s.sinkReplies := by decide
theorem witness_SessionReadError :
    let s : State := { State.powerOn with host := .opening .littleEndianBits true, input := ⟨[.byte 0x48#8, .ioFault], .unbounded 7⟩ }
    s.host = .opening .littleEndianBits true ∧ s.requests = [] ∧
      s.input = ⟨[0x48#8].map .byte ++ .ioFault :: [], .unbounded 7⟩ ∧
      WriteResult.writeError ∉ s.sinkReplies.take (8 * [0x48#8].length) := by decide
theorem witness_ProductWidthUnobservable : 8 ≤ 8 ∧ (-254 : Int) ≤ -254 ∧ (254 : Int) ≤ 254 := by decide
theorem witness_SinkWriteErrorLosesTheRest :
    let s : State := { asking State.reset [.byteIn 0x01#8] with sinkReplies := [.ok, .ok, .ok, .ok, .ok, .ok, .ok, .writeError] }
    Ready s ∧ s.requests = .byteIn 0x01#8 :: [] ∧ 7 < 8 ∧ s.sinkReplies = List.replicate 7 .ok ++ .writeError :: [] :=
  ⟨⟨rfl, rfl⟩, rfl, by decide, rfl⟩
theorem witness_SinkWriteErrorLosesTheRest_first :
    let s : State := { asking State.reset [.byteIn 0x01#8, .byteIn 0x02#8] with sinkReplies := [.writeError, .ok] }
    Ready s ∧ s.requests = .byteIn 0x01#8 :: [.byteIn 0x02#8] ∧ 0 < 8 ∧
      s.sinkReplies = List.replicate 0 .ok ++ .writeError :: [.ok] ∧
      ∀ r ∈ [Request.byteIn 0x02#8], startsSession r = false :=
  ⟨⟨rfl, rfl⟩, rfl, by decide, rfl, by decide⟩
theorem witness_SinkOpenErrorIssuesNothing :
    let s : State := { State.powerOn with host := .opening .bigEndianBits false }
    s.host = .opening .bigEndianBits false ∧ s.requests = [] := by decide
theorem witness_StoppedIsFinal :
    State.reset.requests = [] ∧ State.reset.host = .direct ∧
      ({ State.reset with host := .stopped .endOfStream }).host = .stopped .endOfStream := by decide

end Sys2Proof.Tests
end

/-! PROOFS. The scope family (spec/00_scope.md): one step runs the operation that the presented word selects. -/

namespace Sys2Proof.Machine

/-- Issuing a word that selects an operation runs that operation and passes its samples on (R30, R44). -/
theorem issue_of_decode_ok {r : Request} {i : Instr} (h : decode r = .ok i) (s : State) :
    issue r s = deliverOutcome (exec i s) := by
  simp [issue, h]

/-- Settles O28: the step takes the word and issues it, and issuing a word that decodes runs its operation. -/
theorem stepRunsDecoded : Obligations.StepRunsDecoded := by
  intro s r rest i hreq hdec
  calc step s = issue r { s with requests := rest } := step_word hreq
    _ = deliverOutcome (exec i { s with requests := rest }) := issue_of_decode_ok hdec _

end Sys2Proof.Machine

/-! PROOFS. What `ENCODE_NEXT` and `PUSH_BYTE` answer (spec/10_state.md rules R13 and R23), what a word to the bit_expander runs,
and the values that the accumulator, the samples and the amplitude word can take (R14, R41, R70). -/

namespace Sys2Proof.Machine

theorem exec_encodeNextP (s : State) : exec .encodeNextP s = encodeNextInto hardware .plus s := rfl

theorem exec_encodeNextM (s : State) : exec .encodeNextM s = encodeNextInto hardware .minus s := rfl

theorem exec_pushByte (b : Byte) (s : State) : exec (.pushByte b) s = pushByteInto hardware b s := rfl

/-- ENCODE_NEXT completes exactly where `ACC` holds a value, and what it then writes depends on that value alone. -/
theorem encodeNextInto_eq_next_iff {p : Params} {x : Amplitude} {s t : State} :
    encodeNextInto p x s = .next t ↔ ∃ a, s.acc = some a ∧
      t = { s with acc := some (encodeNext p a x).1, result := .samples [(encodeNext p a x).2] } := by
  cases hacc : s.acc <;> simp [encodeNextInto, hacc, eq_comm]

/-- PUSH_BYTE completes exactly where both registers hold a value, and what it then writes depends on these two alone. -/
theorem pushByteInto_eq_next_iff {p : Params} {b : Byte} {s t : State} :
    pushByteInto p b s = .next t ↔ ∃ a o, s.acc = some a ∧ s.order = some o ∧
      t = { s with acc := some (encodeLanes p a (expand b o)).1,
                   result := .samples (encodeLanes p a (expand b o)).2 } := by
  cases hacc : s.acc <;> cases horder : s.order <;> simp [pushByteInto, hacc, horder, eq_comm]

theorem encodeNextInto_of_acc_none (p : Params) (x : Amplitude) {s : State} (h : s.acc = none) :
    encodeNextInto p x s = .refused .notReset := by
  simp [encodeNextInto, h]

theorem pushByteInto_of_acc_none_or_order_none (p : Params) (b : Byte) {s : State}
    (h : s.acc = none ∨ s.order = none) : pushByteInto p b s = .refused .notReset := by
  rcases h with h | h
  · simp [pushByteInto, h]
  · cases hacc : s.acc <;> simp [pushByteInto, hacc, h]

/-- Every word to the bit_expander selects an EXPAND, which completes and only shows its result (R56). -/
theorem exec_of_decode_req {x : BitVec 9} {i : Instr} (h : decode (.req x) = .ok i) (s : State) :
    ∃ b o, exec i s = .next (expandInto b o s) := by
  simp only [decode] at h
  split at h <;> cases h
  · exact ⟨_, .bigEndianBits, rfl⟩
  · exact ⟨_, .littleEndianBits, rfl⟩

/-- No operation touches the host's side: the words, the input stream, the sink's answers, the host (R21). -/
theorem exec_environment {i : Instr} {s t : State} (h : exec i s = .next t) :
    t.requests = s.requests ∧ t.input = s.input ∧ t.sinkReplies = s.sinkReplies ∧ t.host = s.host := by
  rcases exec_next_cases h with
    ⟨b, o, rfl⟩ | ⟨-, rfl⟩ | ⟨o, -, rfl⟩ | ⟨a, x, -, rfl⟩ | ⟨a, o, b, -, -, rfl⟩ <;>
  exact ⟨rfl, rfl, rfl, rfl⟩

/-- Under FLOOR the accumulator is in 0 to 254 after one ENCODE_NEXT, wherever it was before. -/
theorem encodeNext_floor_range {p : Params} (hp : p.modSem = .floor) (a : AccWord) (x : Amplitude) :
    0 ≤ (encodeNext p a x).1.toInt ∧ (encodeNext p a x).1.toInt ≤ 254 := by
  rw [encodeNext_acc, hp, reduce_floor]
  omega

/-- Under FLOOR a sequence of amplitudes keeps the accumulator in 0 to 254 (R68). -/
theorem encodeLanes_floor_range {p : Params} (hp : p.modSem = .floor) (xs : List Amplitude) {a : AccWord}
    (ha : 0 ≤ a.toInt ∧ a.toInt ≤ 254) :
    0 ≤ (encodeLanes p a xs).1.toInt ∧ (encodeLanes p a xs).1.toInt ≤ 254 := by
  induction xs generalizing a with
  | nil => exact ha
  | cons x xs ih => exact ih (encodeNext_floor_range hp a x)

/-- With this hardware's `SCALE` every sample of a sequence is zero, under either remainder (R70). -/
theorem encodeLanes_samples_of_scale {p : Params} (hp : p.scale = hardware.scale) (a : AccWord) (xs : List Amplitude) :
    (encodeLanes p a xs).2 = List.replicate xs.length 0#8 := by
  induction xs generalizing a with
  | nil => rfl
  | cons x xs ih =>
    rw [encodeLanes_cons_samples, ih, encodeNext_sample, hp, quantise_hardware, List.length_cons, List.replicate_succ]

/-- Bit 0 of each lane of a packed word is 1, as in both amplitude codes (R40). -/
theorem packLanes_getLsbD_even {xs : List Amplitude} {i : Nat} (hlen : i < xs.length) (hi : i < 8) :
    (packLanes xs).getLsbD (2 * i) = true := by
  induction xs generalizing i with
  | nil => simp at hlen
  | cons x xs ih =>
    cases i with
    | zero => cases x <;> simp [packLanes, ampCode]
    | succ i =>
      have hrest : (packLanes xs).getLsbD (2 * i) = true := ih (by simpa using hlen) (by omega)
      have hshift : (packLanes xs <<< 2).getLsbD (2 * (i + 1)) = true := by
        rw [Nat.mul_succ, BitVec.getLsbD_shiftLeft, Nat.add_sub_cancel, hrest]
        simp [show 2 * i + 2 < 16 by omega]
      rw [packLanes, BitVec.getLsbD_or, hshift, Bool.true_or]

/-- A word with a 1 at every even position meets the 0x5555 pattern (R41). -/
theorem wellFormed_of_getLsbD_even {w : AmpBus} (h : ∀ i < 8, w.getLsbD (2 * i) = true) :
    AmpBus.wellFormed w = true := by
  have hpattern : ∀ k < 16, (0x5555#16).getLsbD k = decide (k % 2 = 0) := by decide
  refine beq_iff_eq.mpr (BitVec.eq_of_getLsbD_eq fun k hk => ?_)
  rw [BitVec.getLsbD_and, hpattern k hk]
  by_cases heven : k % 2 = 0
  · have hbit : w.getLsbD k = true := by
      simpa [show 2 * (k / 2) = k by omega] using h (k / 2) (by omega)
    simp [hbit]
  · simp [heven]

/-- The bit_expander shows no reserved amplitude code (R58). -/
theorem expandWord_wellFormed (b : Byte) (o : BitOrder) : AmpBus.wellFormed (expandWord b o) = true :=
  wellFormed_of_getLsbD_even fun _ hi => packLanes_getLsbD_even hi hi

/-- Passing samples on adds to the output stream no sample that the port does not show. -/
theorem mem_output_of_mem_deliver {s : State} {y : Sample} (hy : y ∈ (deliver s).output) :
    y ∈ s.output ∨ ∃ ys, s.result = .samples ys ∧ y ∈ ys := by
  by_cases h : ∃ ys, s.result = .samples ys
  · obtain ⟨ys, hys⟩ := h
    rw [deliver_samples hys] at hy
    have hmem : y ∈ s.output ∨ y ∈ ys := by
      rcases writeAll_cases ys s with ⟨replies, e⟩ | ⟨replies, k, -, e⟩
      · simpa [e] using hy
      · rw [e, stopHost_output, List.mem_append] at hy
        exact hy.imp_right List.mem_of_mem_take
    exact hmem.imp_right fun hy => ⟨ys, hys, hy⟩
  · rw [deliver_quiet fun ys e => h ⟨ys, e⟩] at hy
    exact .inl hy

end Sys2Proof.Machine

/-! PROOFS. The state family (spec/10_state.md): what reads and writes the two registers, and the invariant of every reachable
state, one lemma for each kind of change that a step can make. -/

namespace Sys2Proof.Machine

/-- A state that shows what another one shows and holds its registers satisfies the invariant with it, if only zero samples
were added to the output stream. -/
theorem Inv.of_same_registers {s t : State} (h : Inv s) (hacc : t.acc = s.acc) (horder : t.order = s.order)
    (hresult : t.result = s.result) (hout : ∀ y ∈ t.output, y ∈ s.output ∨ y = 0#8) : Inv t where
  accRange := by rw [hacc]; exact h.accRange
  orderHasAcc := by rw [hacc, horder]; exact h.orderHasAcc
  busLegal := by rw [hresult]; exact h.busLegal
  samplesZero := by rw [hresult]; exact h.samplesZero
  outputZero y hy := (hout y hy).elim (h.outputZero y) id

/-- The start of a session satisfies the invariant, whatever came before it. -/
theorem inv_of_session_start {t : State} (hacc : t.acc = some 0#9) (hresult : t.result = .nothing)
    (hout : t.output = []) : Inv t where
  accRange a ha := by
    obtain rfl : 0#9 = a := by simpa [hacc] using ha
    decide
  orderHasAcc _ := by simp [hacc]
  busLegal w hw := by simp [hresult] at hw
  samplesZero ys hys := by simp [hresult] at hys
  outputZero y hy := by simp [hout] at hy

/-- Showing the word of an EXPAND keeps the invariant. -/
theorem Inv.show_expandWord {s : State} (h : Inv s) (b : Byte) (o : BitOrder) :
    Inv { s with result := .ampBus (expandWord b o) } where
  accRange := h.accRange
  orderHasAcc := h.orderHasAcc
  busLegal w hw := by
    cases hw
    exact expandWord_wellFormed b o
  samplesZero ys hys := by cases hys
  outputZero := h.outputZero

/-- Encoding one or eight amplitudes keeps the invariant. -/
theorem Inv.encode_lanes {s : State} (h : Inv s) {a : AccWord} (ha : s.acc = some a) {xs : List Amplitude}
    (hlen : xs.length = 1 ∨ xs.length = 8) :
    Inv { s with acc := some (encodeLanes hardware a xs).1, result := .samples (encodeLanes hardware a xs).2 } where
  accRange a' ha' := by
    cases ha'
    exact encodeLanes_floor_range rfl xs (h.accRange a ha)
  orderHasAcc _ := rfl
  busLegal w hw := by cases hw
  samplesZero ys hys := by
    cases hys
    rw [encodeLanes_samples_of_scale rfl, List.length_replicate]
    exact ⟨hlen, fun y hy => List.eq_of_mem_replicate hy⟩
  outputZero := h.outputZero

/-- Every operation that completes keeps the invariant. -/
theorem Inv.after_exec {i : Instr} {s t : State} (h : Inv s) (hexec : exec i s = .next t) : Inv t := by
  rcases exec_next_cases hexec with
    ⟨b, o, rfl⟩ | ⟨-, rfl⟩ | ⟨o, -, rfl⟩ | ⟨a, x, ha, rfl⟩ | ⟨a, o, b, ha, -, rfl⟩
  · exact h.show_expandWord b o
  · exact inv_of_session_start rfl rfl rfl
  · exact inv_of_session_start rfl rfl rfl
  · exact h.encode_lanes (xs := [x]) ha (.inl rfl)
  · exact h.encode_lanes ha (.inr (expand_length b o))

/-- Passing an operation's samples on keeps the invariant, since they are zero. -/
theorem Inv.after_deliver {s : State} (h : Inv s) : Inv (deliver s) := by
  obtain ⟨hacc, horder, hresult, -⟩ := deliver_frame s
  refine h.of_same_registers hacc horder hresult fun y hy => ?_
  rcases mem_output_of_mem_deliver hy with hy | ⟨ys, hys, hy⟩
  · exact .inl hy
  · exact .inr ((h.samplesZero ys hys).2 y hy)

/-- The host's own move keeps the invariant. -/
theorem Inv.after_hostMove {s : State} (h : Inv s) : Inv (hostMove s) := by
  obtain ⟨hacc, horder, hresult⟩ := hostMove_frame s
  refine h.of_same_registers hacc horder hresult fun y hy => ?_
  rcases hostMove_output s with hout | hout
  · exact .inl (hout ▸ hy)
  · simp [hout] at hy

/-- The invariant does not speak of the words that the host presents. -/
theorem Inv.with_requests {s : State} (h : Inv s) (rs : List Request) : Inv { s with requests := rs } :=
  h.of_same_registers rfl rfl rfl fun _ hy => .inl hy

/-- Settles O38: a step is the host's move, an operation with its samples passed on, or an idle word taken, and each of these
keeps the invariant. -/
theorem stepKeepsInv : Obligations.StepKeepsInv := by
  intro s t hinv hstep
  rcases step_next_cases hstep with
    ⟨-, rfl⟩ | ⟨r, rest, i, u, -, -, hexec, rfl⟩ | ⟨r, rest, -, -, rfl⟩
  · exact hinv.after_hostMove
  · exact ((hinv.with_requests rest).after_exec hexec).after_deliver
  · exact hinv.with_requests rest

/-- At power-on there is no value that could break the invariant. -/
theorem inv_powerOn : Inv State.powerOn where
  accRange a ha := by cases ha
  orderHasAcc h := by cases h
  busLegal w hw := by cases hw
  samplesZero ys hys := by cases hys
  outputZero y hy := by cases hy

/-- Settles O37: power-on holds no value, and State.reset is what a CORE_RESET leaves there. -/
theorem invAtReset : Obligations.InvAtReset :=
  have hreset : exec (.coreReset .littleEndianBits) State.powerOn = .next State.reset := rfl
  ⟨inv_powerOn.after_exec hreset, inv_powerOn⟩

/-- Settles O34: the host's move, an EXPAND and the passing on of samples each leave both registers. -/
theorem registersNeedTheirPorts : Obligations.RegistersNeedTheirPorts := by
  intro s t hstep hport
  rcases step_next_cases hstep with
    ⟨-, rfl⟩ | ⟨r, rest, i, u, hreq, hdec, hexec, rfl⟩ | ⟨r, rest, -, -, rfl⟩
  · obtain ⟨hacc, horder, -⟩ := hostMove_frame s
    exact ⟨hacc, horder⟩
  · obtain ⟨x, rfl⟩ : ∃ x, r = .req x := by
      rcases hport with hnone | ⟨x, rest', hx⟩
      · simp [hreq] at hnone
      · exact ⟨x, (List.cons.inj (hreq.symm.trans hx)).1⟩
    obtain ⟨b, o, hexpand⟩ := exec_of_decode_req hdec { s with requests := rest }
    obtain rfl : expandInto b o { s with requests := rest } = u := by simpa [hexpand] using hexec
    obtain ⟨hacc, horder, -⟩ := deliver_frame (expandInto b o { s with requests := rest })
    exact ⟨hacc, horder⟩
  · exact ⟨rfl, rfl⟩

/-- An operation that completes in one state completes in every state with the same registers, and leaves the same registers
and the same result there. -/
theorem exec_of_same_registers {i : Instr} {s s' t : State} (hacc : s.acc = s'.acc) (horder : s.order = s'.order)
    (h : exec i s = .next t) :
    ∃ t', exec i s' = .next t' ∧ t'.acc = t.acc ∧ t'.order = t.order ∧ t'.result = t.result := by
  have one : ∀ x, encodeNextInto hardware x s = .next t → ∃ t', encodeNextInto hardware x s' = .next t' ∧
      t'.acc = t.acc ∧ t'.order = t.order ∧ t'.result = t.result := by
    intro x hx
    obtain ⟨a, ha, rfl⟩ := encodeNextInto_eq_next_iff.mp hx
    exact ⟨_, encodeNextInto_eq_next_iff.mpr ⟨a, hacc ▸ ha, rfl⟩, rfl, horder.symm, rfl⟩
  cases i with
  | expandLE b => cases h; exact ⟨_, rfl, hacc.symm, horder.symm, rfl⟩
  | expandBE b => cases h; exact ⟨_, rfl, hacc.symm, horder.symm, rfl⟩
  | new => cases h; exact ⟨_, rfl, rfl, horder.symm, rfl⟩
  | encodeNextP => exact one .plus h
  | encodeNextM => exact one .minus h
  | coreReset o => cases h; exact ⟨_, rfl, rfl, rfl, rfl⟩
  | pushByte b =>
    obtain ⟨a, o, ha, ho, rfl⟩ := pushByteInto_eq_next_iff.mp h
    exact ⟨_, pushByteInto_eq_next_iff.mpr ⟨a, o, hacc ▸ ha, horder ▸ ho, rfl⟩, rfl, horder.symm, rfl⟩

/-- Settles O35: the registers decide what an operation leaves and shows, and it never touches the host's side. -/
theorem operationsReadOnlyRegisters : Obligations.OperationsReadOnlyRegisters :=
  fun _ _ _ _ hacc horder h => ⟨exec_of_same_registers hacc horder h, exec_environment h⟩

/-- Settles O27: a register that holds no value refuses its readers; NEW gives `ACC` a value and `CFG.ORDER` none. -/
theorem powerOn : Obligations.PowerOn := by
  refine ⟨rfl, rfl, ?encP, ?encM, ?push, fun _ => rfl, fun _ => rfl, startSession State.powerOn, rfl, ?encAfterNew,
    ?pushAfterNew⟩
  case encP => rw [exec_encodeNextP, encodeNextInto_of_acc_none _ _ rfl]
  case encM => rw [exec_encodeNextM, encodeNextInto_of_acc_none _ _ rfl]
  case push =>
    intro b
    rw [exec_pushByte, pushByteInto_of_acc_none_or_order_none _ _ (.inl rfl)]
  case encAfterNew =>
    have hacc : (encodeNext hardware 0#9 .plus).1 = 1#9 := by decide
    rw [exec_encodeNextP]
    exact ⟨_, encodeNextInto_eq_next_iff.mpr ⟨0#9, rfl, rfl⟩, congrArg some hacc⟩
  case pushAfterNew =>
    intro b
    rw [exec_pushByte, pushByteInto_of_acc_none_or_order_none _ _ (.inr rfl)]

end Sys2Proof.Machine

/-! PROOFS. Passing samples on where no write fails (spec/20_memory.md rules R29 and R31). -/

namespace Sys2Proof.Machine

/-- A write that the sink does not answer with an error appends its sample and takes one answer. -/
theorem outWrite_of_no_error {s : State} (h : .writeError ∉ s.sinkReplies.take 1) (y : Sample) :
    outWrite y s = (.ok, { s with output := s.output ++ [y], sinkReplies := s.sinkReplies.drop 1 }) := by
  obtain ⟨acc, order, result, requests, input, replies, output, host⟩ := s
  match replies with
  | [] => rfl
  | .ok :: _ => rfl
  | .writeError :: _ => simp at h

theorem writeAll_cons_of_ok {y : Sample} {s s' : State} (h : outWrite y s = (.ok, s')) (ys : List Sample) :
    writeAll (y :: ys) s = writeAll ys s' := by
  simp [writeAll, h]

theorem writeAll_of_no_error {ys : List Sample} {s : State} (h : .writeError ∉ s.sinkReplies.take ys.length) :
    writeAll ys s = { s with output := s.output ++ ys, sinkReplies := s.sinkReplies.drop ys.length } := by
  induction ys generalizing s with
  | nil => simp [writeAll]
  | cons y ys ih =>
    rw [List.length_cons, Nat.add_comm, List.take_add, List.mem_append, not_or] at h
    obtain ⟨hfirst, hrest⟩ := h
    rw [writeAll_cons_of_ok (outWrite_of_no_error hfirst y), ih hrest]
    simp [Nat.add_comm]

theorem deliver_of_no_error {s : State} {ys : List Sample} (hys : s.result = .samples ys)
    (h : .writeError ∉ s.sinkReplies.take ys.length) :
    deliver s = { s with output := s.output ++ ys, sinkReplies := s.sinkReplies.drop ys.length } := by
  rw [deliver_samples hys, writeAll_of_no_error h]

/-- An operation that completes with samples, whose writes do not fail, has them all appended. -/
theorem deliverOutcome_of_no_error {u : Host.Outcome State Fault Refusal} {s : State} {ys : List Sample}
    (hu : u = .next s) (hys : s.result = .samples ys) (h : .writeError ∉ s.sinkReplies.take ys.length) :
    deliverOutcome u = .next { s with output := s.output ++ ys, sinkReplies := s.sinkReplies.drop ys.length } := by
  rw [hu, deliverOutcome, deliver_of_no_error hys h]

/-- Settles O29: by induction on the samples, each write takes one answer and appends its sample. -/
theorem deliverAppendsSamples : Obligations.DeliverAppendsSamples :=
  ⟨fun _ _ hys h => deliver_of_no_error hys h, fun _ h => deliver_quiet h⟩

end Sys2Proof.Machine

/-! PROOFS. PUSH_BYTE as ENCODE_NEXT iterated over the lanes, and its closed form under FLOOR (spec/42_dpcm_core.md
rules R78 and R79, spec/41_delta_encoder.md rule R75). -/

namespace Sys2Proof.Machine

theorem encodeNextInto_of_acc (p : Params) (x : Amplitude) {s : State} {a : AccWord} (ha : s.acc = some a) :
    encodeNextInto p x s =
      .next { s with acc := some (encodeNext p a x).1, result := .samples [(encodeNext p a x).2] } :=
  encodeNextInto_eq_next_iff.mpr ⟨a, ha, rfl⟩

theorem pushByteInto_of_registers (p : Params) (b : Byte) {s : State} {a : AccWord} {o : BitOrder}
    (ha : s.acc = some a) (ho : s.order = some o) :
    pushByteInto p b s = .next { s with acc := some (encodeLanes p a (expand b o)).1,
                                        result := .samples (encodeLanes p a (expand b o)).2 } :=
  pushByteInto_eq_next_iff.mpr ⟨a, o, ha, ho, rfl⟩

/-- Where `ACC` holds a value the iteration is never refused and gives what `encodeLanes` gives. -/
theorem encodeEach_eq_encodeLanes (p : Params) (xs : List Amplitude) {s : State} {a : AccWord} (ha : s.acc = some a) :
    ∃ r, encodeEach p xs s =
      some ({ s with acc := some (encodeLanes p a xs).1, result := r }, (encodeLanes p a xs).2) := by
  induction xs generalizing s a with
  | nil => exact ⟨s.result, by simp [encodeEach, ← ha]⟩
  | cons x xs ih =>
    obtain ⟨r, hmore⟩ := ih (s := { s with
      acc := some (encodeNext p a x).1, result := .samples [(encodeNext p a x).2] }) rfl
    exact ⟨r, by simp [encodeEach, encodeNextInto_of_acc p x ha, hmore, samplesOf]⟩

/-- The word of an amplitude at `amp_in` runs ENCODE_NEXT with that amplitude (R40, R44). -/
theorem issue_ampCode (x : Amplitude) (s : State) :
    issue (.ampIn (ampCode x)) s = deliverOutcome (encodeNextInto hardware x s) := by
  cases x with
  | plus => exact issue_of_decode_ok (i := .encodeNextP) rfl s
  | minus => exact issue_of_decode_ok (i := .encodeNextM) rfl s

/-- A step with the word of an amplitude, where its one write does not fail. -/
theorem step_ampCode {s : State} {x : Amplitude} {rest : List Request} {a : AccWord}
    (hreq : s.requests = .ampIn (ampCode x) :: rest) (ha : s.acc = some a)
    (hok : .writeError ∉ s.sinkReplies.take 1) :
    step s = .next { s with
      acc := some (encodeNext hardware a x).1, result := .samples [0#8], requests := rest
      output := s.output ++ [0#8], sinkReplies := s.sinkReplies.drop 1 } := by
  have hsample : (encodeNext hardware a x).2 = 0#8 := quantise_hardware _
  have hexec := encodeNextInto_of_acc (s := { s with requests := rest }) hardware x ha
  rw [hsample] at hexec
  rw [step_word hreq, issue_ampCode, deliverOutcome_of_no_error hexec rfl hok]
  rfl

/-- A step with a byte, where none of its eight writes fails. -/
theorem step_byteIn {s : State} {b : Byte} {rest : List Request} {a : AccWord} {o : BitOrder}
    (hreq : s.requests = .byteIn b :: rest) (ha : s.acc = some a) (ho : s.order = some o)
    (hok : .writeError ∉ s.sinkReplies.take 8) :
    step s = .next { s with
      acc := some (encodeLanes hardware a (expand b o)).1, result := .samples (List.replicate 8 0#8), requests := rest
      output := s.output ++ List.replicate 8 0#8, sinkReplies := s.sinkReplies.drop 8 } := by
  have hexec := pushByteInto_of_registers (s := { s with requests := rest }) hardware b ha ho
  rw [encodeLanes_samples_of_scale rfl, expand_length] at hexec
  rw [step_word hreq, issue_of_decode_ok (i := .pushByte b) rfl, exec_pushByte,
    deliverOutcome_of_no_error hexec rfl hok]
  rfl

/-- Presenting amplitudes one after another, where none of their writes fails. -/
theorem run_ampCodes {xs : List Amplitude} {s : State} {a : AccWord}
    (hreq : s.requests = xs.map (fun x => .ampIn (ampCode x))) (ha : s.acc = some a)
    (hok : .writeError ∉ s.sinkReplies.take xs.length) :
    ∃ r, core.run xs.length s = .next { s with
      acc := some (encodeLanes hardware a xs).1, result := r, requests := []
      output := s.output ++ List.replicate xs.length 0#8, sinkReplies := s.sinkReplies.drop xs.length } := by
  induction xs generalizing s a with
  | nil =>
    have hnone : s.requests = [] := hreq
    exact ⟨s.result, by simp [Host.Core.run, ← ha, ← hnone]⟩
  | cons x xs ih =>
    rw [List.length_cons, Nat.add_comm, List.take_add, List.mem_append, not_or] at hok
    obtain ⟨hfirst, hrest⟩ := hok
    rw [List.length_cons, run_succ (step_ampCode hreq ha hfirst)]
    obtain ⟨r, hrun⟩ := ih (s := { s with
      acc := some (encodeNext hardware a x).1, result := .samples [0#8]
      requests := xs.map (fun x => .ampIn (ampCode x))
      output := s.output ++ [0#8], sinkReplies := s.sinkReplies.drop 1 }) rfl rfl hrest
    exact ⟨r, by rw [hrun]; simp [List.replicate_succ]⟩

/-- Settles O24: both sides end with what `encodeLanes` gives for the byte's amplitudes. -/
theorem pushByteIsEightEncodes : Obligations.PushByteIsEightEncodes := by
  refine ⟨?iterated, exec_pushByte, ?presented⟩
  case iterated =>
    intro p b s o hacc ho
    obtain ⟨a, ha⟩ := Option.isSome_iff_exists.mp hacc
    obtain ⟨r, heach⟩ := encodeEach_eq_encodeLanes p (expand b o) ha
    exact ⟨_, _, heach, encodeLanes_samples_length .., pushByteInto_of_registers p b ha ho⟩
  case presented =>
    intro b s o hacc ho hok
    obtain ⟨a, ha⟩ := Option.isSome_iff_exists.mp hacc
    obtain ⟨r, hrun⟩ := run_ampCodes (xs := expand b o)
      (s := { s with requests := (expand b o).map (fun x => .ampIn (ampCode x)) }) rfl ha hok
    exact ⟨_, hrun, step_byteIn rfl ha ho hok⟩

@[simp] theorem ampSum_nil : ampSum [] = 0 := rfl

@[simp] theorem ampSum_cons (x : Amplitude) (xs : List Amplitude) : ampSum (x :: xs) = ampValue x + ampSum xs := rfl

/-- Under FLOOR one or more amplitudes leave the starting value plus their sum, modulo 255, wherever `ACC` was (R75). -/
theorem encodeLanes_floor_acc {p : Params} (hp : p.modSem = .floor) (a : AccWord) (x : Amplitude)
    (xs : List Amplitude) :
    (encodeLanes p a (x :: xs)).1 = BitVec.ofInt 9 ((a.toInt + ampSum (x :: xs)) % 255) := by
  induction xs generalizing a x with
  | nil => simp [encodeNext, hp, reduce_floor]
  | cons y ys ih =>
    rw [encodeLanes_cons_acc, ih, encodeNext_acc, hp, reduce_floor, Int.emod_add_emod, ampSum_cons x, Int.add_assoc]

/-- Under FLOOR each sample is that of the sum so far (R75). -/
theorem encodeLanes_floor_sample {p : Params} (hp : p.modSem = .floor) (a : AccWord) {xs : List Amplitude} {k : Nat}
    (hk : k < xs.length) :
    (encodeLanes p a xs).2[k]? = some (quantise p.scale ((a.toInt + ampSum (xs.take (k + 1))) % 255)) := by
  induction xs generalizing a k with
  | nil => simp at hk
  | cons x xs ih =>
    cases k with
    | zero => simp [encodeNext_sample, hp, reduce_floor]
    | succ k =>
      rw [encodeLanes_cons_samples, List.getElem?_cons_succ, ih _ (by simpa using hk), encodeNext_acc, hp, reduce_floor,
        Int.emod_add_emod, List.take_succ_cons, ampSum_cons, Int.add_assoc]

/-- Under FLOOR a byte leaves the starting value plus the sum of its amplitudes, modulo 255. -/
theorem encodeLanes_floor_expand_acc {p : Params} (hp : p.modSem = .floor) (a : AccWord) (b : Byte) (o : BitOrder) :
    (encodeLanes p a (expand b o)).1 = BitVec.ofInt 9 ((a.toInt + ampSum (expand b o)) % 255) :=
  encodeLanes_floor_acc hp a _ _

/-- Settles O25: the closed form of the lanes under FLOOR, and the two runs of the vectors. -/
theorem pushByteReadsOrder : Obligations.PushByteReadsOrder := by
  refine ⟨?closed, ?vectors⟩
  case closed =>
    intro p b s a o hp ha ho
    refine ⟨(encodeLanes p a (expand b o)).2, ?_, encodeLanes_samples_length .., fun k hk =>
      encodeLanes_floor_sample hp a hk⟩
    rw [← encodeLanes_floor_expand_acc hp]
    exact pushByteInto_of_registers p b ha ho
  case vectors =>
    intro s ha
    have hle : encodeLanes ⟨.floor, 1⟩ 254#9 (expand 0x0F#8 .littleEndianBits) =
        (254#9, [0x00#8, 0x01#8, 0x02#8, 0x03#8, 0x02#8, 0x01#8, 0x00#8, 0xFE#8]) := by decide
    have hbe : encodeLanes ⟨.floor, 1⟩ 254#9 (expand 0x0F#8 .bigEndianBits) =
        (254#9, [0xFD#8, 0xFC#8, 0xFB#8, 0xFA#8, 0xFB#8, 0xFC#8, 0xFD#8, 0xFE#8]) := by decide
    exact ⟨pushByteInto_eq_next_iff.mpr ⟨254#9, .littleEndianBits, ha, rfl, by simp [hle]⟩,
      pushByteInto_eq_next_iff.mpr ⟨254#9, .bigEndianBits, ha, rfl, by simp [hbe]⟩⟩

end Sys2Proof.Machine

/-! PROOFS. The reference host (spec/42_dpcm_core.md rules R80 to R85): its moves, how a session opens, one byte of its
loop, and the bytes that an input stream yields. -/

namespace Sys2Proof.Machine

theorem hostMove_idle {s : State} (h : s.host = .direct ∨ ∃ why, s.host = .stopped why) : hostMove s = s := by
  rcases h with h | ⟨why, h⟩ <;> simp [hostMove, h]

theorem hostMove_opening {s : State} {o : BitOrder} (h : s.host = .opening o true) :
    hostMove s = { s with requests := [encode (.coreReset o)], host := .running } := by
  simp [hostMove, h]

theorem hostMove_byte {s : State} {b : Byte} {rest : InputStream} (h : s.host = .running)
    (hread : inRead s.input = (.byte b, rest)) :
    hostMove s = { s with requests := [.byteIn b], input := rest } := by
  simp [hostMove, h, hread, encode]

/-- A state that a step leaves as it is stays so in every run. -/
theorem run_of_step_self {s : State} (h : step s = .next s) (k : Nat) : core.run k s = .next s := by
  induction k with
  | zero => rfl
  | succ k ih => rw [run_succ h, ih]

/-- Settles O45: the host's move changes nothing, so no step does. -/
theorem stoppedIsFinal : Obligations.StoppedIsFinal := by
  intro s k hreq hhost
  have hstep : step s = .next s := by rw [step_no_word hreq, hostMove_idle hhost]
  exact run_of_step_self hstep k

/-- A step with the word of CORE_RESET. -/
theorem step_coreReset {s : State} {o : BitOrder} {rest : List Request}
    (hreq : s.requests = encode (.coreReset o) :: rest) :
    step s = .next { s with acc := some 0#9, order := some o, result := .nothing, requests := rest, output := [] } := by
  have hdec : decode (encode (.coreReset o)) = .ok (.coreReset o) := by cases o <;> rfl
  rw [step_word hreq, issue_of_decode_ok hdec]
  rfl

/-- The state in which the reference host enters its loop: registers reset, nothing written, the input not yet read. -/
def loopStart (s : State) (o : BitOrder) : State :=
  { s with acc := some 0#9, order := some o, result := .nothing, requests := [], output := [], host := .running }

/-- Opening the sink and the CORE_RESET bring the reference host into its loop. -/
theorem run_opening {s : State} {o : BitOrder} (hhost : s.host = .opening o true) (hreq : s.requests = []) :
    core.run 2 s = .next (loopStart s o) := by
  rw [run_succ (step_no_word hreq), hostMove_opening hhost, run_succ (step_coreReset rfl)]
  rfl

/-- An amplitude's value from the bit it stands for (R55). -/
theorem ampValue_signMap (bit : Bool) : ampValue (signMap bit) = 2 * (bit.toNat : Int) - 1 := by
  cases bit <;> rfl

/-- The amplitudes of a byte sum to twice its 1 bits less eight, under either order (R58). -/
theorem ampSum_expand (b : Byte) (o : BitOrder) : ampSum (expand b o) = 2 * (popcount b : Int) - 8 := by
  have hones : popcount b = (b.getLsbD 0).toNat + (b.getLsbD 1).toNat + (b.getLsbD 2).toNat + (b.getLsbD 3).toNat +
      (b.getLsbD 4).toNat + (b.getLsbD 5).toNat + (b.getLsbD 6).toNat + (b.getLsbD 7).toNat := by
    simp [popcount, List.range_succ, Nat.add_assoc]
  rw [hones]
  cases o <;> simp only [expand, List.map_cons, List.map_nil, ampSum_cons, ampSum_nil, ampValue_signMap, selBit] <;>
    push_cast <;> ring

/-- The input stream `i` gives the bytes `bs` one after another, and then `j` is left of it. -/
inductive Yields : InputStream → List Byte → InputStream → Prop
  | nil (i : InputStream) : Yields i [] i
  | cons {i m j : InputStream} {b : Byte} {bs : List Byte} (hread : inRead i = (.byte b, m)) (hrest : Yields m bs j) :
      Yields i (b :: bs) j

theorem Yields.append {i m j : InputStream} {bs cs : List Byte} (h : Yields i bs m) (h' : Yields m cs j) :
    Yields i (bs ++ cs) j := by
  induction h with
  | nil => exact h'
  | cons hread _ ih => exact .cons hread (ih h')

/-- The listed bytes come first (R26, R27). -/
theorem yields_listed (bs : List Byte) (more : List StreamItem) (tail : StreamTail) :
    Yields ⟨bs.map .byte ++ more, tail⟩ bs ⟨more, tail⟩ := by
  induction bs with
  | nil => exact .nil _
  | cons b bs ih => exact .cons rfl ih

/-- An unbounded stream yields as many bytes as are asked for (R26). -/
theorem yields_unbounded (n first : Nat) :
    Yields ⟨[], .unbounded first⟩ ((List.range n).map (fun j => Config.streamByte (first + j)))
      ⟨[], .unbounded (first + n)⟩ := by
  induction n with
  | zero => exact .nil _
  | succ n ih =>
    rw [List.range_succ, List.map_append]
    exact ih.append (.cons rfl (.nil _))

/-- The state of the reference host's loop once `bs` is read from `s`, where `ACC` was `z` modulo 255: what R82 to R84
say of the registers and the output stream, with `rest` left of the input. -/
def afterBytes (s : State) (z : Int) (bs : List Byte) (rest : InputStream) : State :=
  { s with
    acc := some (BitVec.ofInt 9 ((z + 2 * (totalOnes bs : Int) - 8 * (bs.length : Int)) % 255))
    result := if bs = [] then s.result else .samples (List.replicate 8 0#8)
    input := rest
    sinkReplies := s.sinkReplies.drop (8 * bs.length)
    output := s.output ++ List.replicate (8 * bs.length) 0#8 }

/-- Reading no byte changes nothing. -/
theorem afterBytes_nil {s : State} {z : Int} (ha : s.acc = some (BitVec.ofInt 9 (z % 255))) :
    afterBytes s z [] s.input = s := by
  simp [afterBytes, totalOnes, ← ha]

theorem afterBytes_singleton_acc (s : State) (z : Int) (b : Byte) (rest : InputStream) :
    (afterBytes s z [b] rest).acc = some (BitVec.ofInt 9 ((z + 2 * (popcount b : Int) - 8) % 255)) := by
  simp [afterBytes, totalOnes]

/-- Reading one byte and then the others is reading them all. -/
theorem afterBytes_cons (s : State) (z : Int) (b : Byte) (bs : List Byte) (m rest : InputStream) :
    afterBytes (afterBytes s z [b] m) (z + 2 * (popcount b : Int) - 8) bs rest = afterBytes s z (b :: bs) rest := by
  have hsum : z + 2 * (popcount b : Int) - 8 + 2 * (totalOnes bs : Int) - 8 * (bs.length : Int) =
      z + 2 * (totalOnes (b :: bs) : Int) - 8 * ((b :: bs).length : Int) := by
    simp only [totalOnes, List.map_cons, List.sum_cons, List.length_cons]
    push_cast
    ring
  simp only [afterBytes, hsum]
  simp [Nat.mul_add, Nat.add_comm, List.replicate_add]

section Loop

variable {s : State} {o : BitOrder} {z : Int} (hhost : s.host = .running) (hreq : s.requests = [])
  (ho : s.order = some o) (ha : s.acc = some (BitVec.ofInt 9 (z % 255)))

include hhost hreq ho ha

/-- One byte of the loop: a step that reads it and a step that pushes it. -/
theorem run_loop_byte {b : Byte} {m : InputStream} (hread : inRead s.input = (.byte b, m))
    (hok : .writeError ∉ s.sinkReplies.take 8) : core.run 2 s = .next (afterBytes s z [b] m) := by
  have hz : (BitVec.ofInt 9 (z % 255)).toInt = z % 255 := toInt_ofInt_nine (by omega) (by omega)
  have hpush := step_byteIn (s := { s with requests := [.byteIn b], input := m }) rfl ha ho hok
  rw [encodeLanes_floor_expand_acc rfl, hz, ampSum_expand, Int.emod_add_emod, ← Int.add_sub_assoc] at hpush
  rw [run_succ (step_no_word hreq), hostMove_byte hhost hread, run_succ hpush]
  simp [Host.Core.run, afterBytes, totalOnes, hreq]

/-- Every byte that the input yields takes two steps of the loop, where no write fails. -/
theorem run_loop {bs : List Byte} {rest : InputStream} (hyields : Yields s.input bs rest)
    (hok : .writeError ∉ s.sinkReplies.take (8 * bs.length)) :
    core.run (2 * bs.length) s = .next (afterBytes s z bs rest) := by
  generalize hi : s.input = i at hyields
  induction hyields generalizing s z with
  | nil i => rw [← hi, afterBytes_nil ha]; rfl
  | @cons i m j b bs hread _ ih =>
    rw [List.length_cons, Nat.mul_succ, Nat.add_comm, List.take_add, List.mem_append, not_or] at hok
    obtain ⟨hfirst, hlater⟩ := hok
    have hbyte := run_loop_byte hhost hreq ho ha (hi ▸ hread) hfirst
    rw [List.length_cons, Nat.mul_succ, Nat.add_comm, run_add hbyte,
      ← afterBytes_cons s z b bs m]
    exact ih (s := afterBytes s z [b] m) hhost hreq ho (afterBytes_singleton_acc s z b m) hlater rfl

end Loop

/-- From the opening of a session, the steps up to any number of its bytes, where no write of theirs fails. -/
theorem run_session {s : State} {o : BitOrder} {bs : List Byte} {rest : InputStream}
    (hhost : s.host = .opening o true) (hreq : s.requests = []) (hyields : Yields s.input bs rest)
    (hok : .writeError ∉ s.sinkReplies.take (8 * bs.length)) :
    core.run (2 * bs.length + 2) s = .next (afterBytes (loopStart s o) 0 bs rest) := by
  rw [Nat.add_comm, run_add (run_opening hhost hreq)]
  exact run_loop (s := loopStart s o) rfl rfl rfl rfl hyields hok

end Sys2Proof.Machine

/-! PROOFS. A session over an unbounded input (spec/20_memory.md rule R26, spec/60_exceptions.md rule R99): its loop
comes back to itself every two steps, so it never stops. -/

namespace Sys2Proof.Machine

/-- Some listed bytes, and then bytes without end. -/
def Endless (i : InputStream) : Prop := ∃ (bs : List Byte) (first : Nat), i = ⟨bs.map .byte, .unbounded first⟩

/-- An endless input always has a next byte, and is endless after it. -/
theorem Endless.inRead {i : InputStream} (h : Endless i) : ∃ b j, inRead i = (.byte b, j) ∧ Endless j := by
  obtain ⟨bs, first, rfl⟩ := h
  cases bs with
  | nil => exact ⟨_, _, rfl, [], first + 1, rfl⟩
  | cons b bs => exact ⟨b, _, rfl, bs, first, rfl⟩

/-- The reference host at the head of its loop, with no byte in hand, an endless input and a sink that never fails. -/
structure EndlessLoop (s : State) : Prop where
  running : s.host = .running
  noWord : s.requests = []
  orderHeld : ∃ o, s.order = some o
  accReduced : ∃ z : Int, s.acc = some (BitVec.ofInt 9 (z % 255))
  endless : Endless s.input
  neverFails : .writeError ∉ s.sinkReplies

/-- One step from the head of the loop the host still runs, and two steps from it it is there again. -/
theorem EndlessLoop.round {s : State} (h : EndlessLoop s) :
    (∃ t, core.run 1 s = .next t ∧ t.host = .running) ∧ ∃ t, core.run 2 s = .next t ∧ EndlessLoop t := by
  obtain ⟨o, ho⟩ := h.orderHeld
  obtain ⟨z, ha⟩ := h.accReduced
  obtain ⟨b, j, hread, hj⟩ := h.endless.inRead
  constructor
  · have hmove : (hostMove s).host = .running := by
      rw [hostMove_byte h.running hread]
      exact h.running
    exact ⟨hostMove s, run_succ (step_no_word h.noWord) 0, hmove⟩
  · have hok : .writeError ∉ s.sinkReplies.take 8 := fun hw => h.neverFails (List.mem_of_mem_take hw)
    exact ⟨afterBytes s z [b] j, run_loop_byte h.running h.noWord ho ha hread hok,
      { running := h.running
        noWord := h.noWord
        orderHeld := ⟨o, ho⟩
        accReduced := ⟨_, afterBytes_singleton_acc s z b j⟩
        endless := hj
        neverFails := fun hw => h.neverFails (List.mem_of_mem_drop hw) }⟩

/-- After every number of steps from the head of the loop the host still runs. -/
theorem EndlessLoop.run_running {s : State} (h : EndlessLoop s) :
    ∀ k, ∃ t, core.run k s = .next t ∧ t.host = .running
  | 0 => ⟨s, rfl, h.running⟩
  | 1 => h.round.1
  | k + 2 => by
    obtain ⟨t, hround, ht⟩ := h.round.2
    rw [Nat.add_comm, run_add hround]
    exact ht.run_running k

/-- A session over an endless input with a sink that never fails has not stopped after any number of steps. -/
theorem session_never_stops {s : State} {o : BitOrder} (hhost : s.host = .opening o true) (hreq : s.requests = [])
    (hinput : Endless s.input) (hok : .writeError ∉ s.sinkReplies) :
    ∀ k, ∃ t, core.run k s = .next t ∧ ∀ why, t.host ≠ .stopped why
  | 0 => ⟨s, rfl, by simp [hhost]⟩
  | 1 => ⟨hostMove s, run_succ (step_no_word hreq) 0, by simp [hostMove_opening hhost]⟩
  | k + 2 => by
    have hloop : EndlessLoop (loopStart s o) := ⟨rfl, rfl, ⟨o, rfl⟩, ⟨0, rfl⟩, hinput, hok⟩
    obtain ⟨t, hrun, hrunning⟩ := hloop.run_running k
    rw [Nat.add_comm, run_add (run_opening hhost hreq)]
    exact ⟨t, hrun, by simp [hrunning]⟩

/-- Settles O41: the loop comes back to itself, and the stream yields the listed bytes and any `n` further ones. -/
theorem unboundedSessionNeverEnds : Obligations.UnboundedSessionNeverEnds := by
  intro bs first o s hhost hreq hinput hok
  refine ⟨session_never_stops hhost hreq ⟨bs, first, hinput⟩ hok, fun n => ?_⟩
  have hyields : Yields s.input (bs ++ (List.range n).map (fun j => Config.streamByte (first + j)))
      ⟨[], .unbounded (first + n)⟩ := by
    have hlisted := yields_listed bs [] (.unbounded first)
    rw [List.append_nil, ← hinput] at hlisted
    exact hlisted.append (yields_unbounded n first)
  have hrun := run_session hhost hreq hyields fun hw => hok (List.mem_of_mem_take hw)
  simp only [List.length_append, List.length_map, List.length_range] at hrun
  refine ⟨_, hrun, rfl, rfl, rfl, rfl, ?_, ?_⟩ <;> simp [afterBytes, loopStart]

end Sys2Proof.Machine

/-! PROOFS. The encoding family (spec/30_encoding.md rules R39 to R48): a word reads back as the operation it was laid out
for, every word is the word of an operation or one of five rejected words, and the decoder tells the two apart. -/

namespace Sys2Proof

/-- XREQ9 reads back as the order bit and the byte it is made of (R42). -/
theorem xreq_fields (o : BitVec 1) (b : Byte) :
    (o ++ b).getLsbD 8 = o.getLsbD 0 ∧ (o ++ b).setWidth 8 = b := by
  constructor
  · rw [BitVec.getLsbD_append]
    rfl
  · rw [BitVec.setWidth_append]
    simp

/-- XREQ9 with the order bit 0 selects EXPAND.LE of its byte (R42, R44). -/
@[simp] theorem decode_req_zero_append (b : Byte) : decode (.req (0#1 ++ b)) = .ok (.expandLE b) := by
  obtain ⟨horder, hbyte⟩ := xreq_fields 0#1 b
  rw [decode, horder, hbyte]
  rfl

/-- XREQ9 with the order bit 1 selects EXPAND.BE of its byte (R42, R44). -/
@[simp] theorem decode_req_one_append (b : Byte) : decode (.req (1#1 ++ b)) = .ok (.expandBE b) := by
  obtain ⟨horder, hbyte⟩ := xreq_fields 1#1 b
  rw [decode, horder, hbyte]
  rfl

/-- CRST2 with its reset bit set selects CORE_RESET with the order in its other bit (R44). -/
@[simp] theorem decode_coreRst_one_append (o : BitOrder) :
    decode (.coreRst (1#1 ++ orderCode o)) = .ok (.coreReset o) := by
  cases o <;> rfl

@[simp] theorem decode_encode (i : Instr) : decode (encode i) = .ok i := by
  cases i with
  | expandLE b => exact decode_req_zero_append b
  | expandBE b => exact decode_req_one_append b
  | new => rfl
  | encodeNextP => rfl
  | encodeNextM => rfl
  | coreReset o => exact decode_coreRst_one_append o
  | pushByte b => rfl

/-- Settles O1: operation by operation, the port and the fields of its word give it back. -/
theorem decodeEncode : Obligations.DecodeEncode := decode_encode

/-- The reserved amplitude codes at `amp_in` (R47). -/
def ReservedWord (r : Request) : Prop := r = .ampIn 0b00#2 ∨ r = .ampIn 0b10#2

/-- The idle reset words (R44). -/
def IdleWord (r : Request) : Prop := r = .rst 0#1 ∨ r = .coreRst 0b00#2 ∨ r = .coreRst 0b01#2

theorem ReservedWord.decode_eq {r : Request} (h : ReservedWord r) : decode r = .error .reservedAmplitude := by
  rcases h with rfl | rfl <;> rfl

theorem IdleWord.decode_eq {r : Request} (h : IdleWord r) : decode r = .error .idle := by
  rcases h with rfl | rfl | rfl <;> rfl

/-- XREQ9 is an order bit followed by a byte (R42). -/
theorem xreq_cases (x : BitVec 9) : ∃ b : Byte, x = 0#1 ++ b ∨ x = 1#1 ++ b := by
  refine ⟨x.setWidth 8, ?_⟩
  have hsplit : x = BitVec.ofBool x.msb ++ x.setWidth 8 := (BitVec.cons_msb_setWidth x).symm
  cases hmsb : x.msb <;> rw [hmsb] at hsplit
  · exact .inl hsplit
  · exact .inr hsplit

/-- AMP2 is the code of an amplitude or reserved (R40, R47). -/
theorem ampCode_cases (a : AmpCode) : (∃ x, a = ampCode x) ∨ a = 0b00#2 ∨ a = 0b10#2 := by
  match a with
  | 0b00#2 => exact .inr (.inl rfl)
  | 0b01#2 => exact .inl ⟨.plus, rfl⟩
  | 0b10#2 => exact .inr (.inr rfl)
  | 0b11#2 => exact .inl ⟨.minus, rfl⟩

/-- CRST2 is a reset bit 1 followed by an order code, or idle (R44). -/
theorem crst_cases (c : BitVec 2) : (∃ o, c = 1#1 ++ orderCode o) ∨ c = 0b00#2 ∨ c = 0b01#2 := by
  match c with
  | 0b00#2 => exact .inr (.inl rfl)
  | 0b01#2 => exact .inr (.inr rfl)
  | 0b10#2 => exact .inl ⟨.littleEndianBits, rfl⟩
  | 0b11#2 => exact .inl ⟨.bigEndianBits, rfl⟩

/-- Every word at every port is the word of an operation, reserved or idle (R44, R48). -/
theorem request_cases (r : Request) : (∃ i, r = encode i) ∨ ReservedWord r ∨ IdleWord r := by
  cases r with
  | req x =>
    obtain ⟨b, rfl | rfl⟩ := xreq_cases x
    · exact .inl ⟨.expandLE b, rfl⟩
    · exact .inl ⟨.expandBE b, rfl⟩
  | rst w =>
    match w with
    | 0#1 => exact .inr (.inr (.inl rfl))
    | 1#1 => exact .inl ⟨.new, rfl⟩
  | ampIn a =>
    obtain ⟨x, rfl⟩ | hreserved := ampCode_cases a
    · cases x with
      | plus => exact .inl ⟨.encodeNextP, rfl⟩
      | minus => exact .inl ⟨.encodeNextM, rfl⟩
    · exact .inr (.inl (hreserved.imp (congrArg _) (congrArg _)))
  | coreRst c =>
    obtain ⟨o, rfl⟩ | hidle := crst_cases c
    · exact .inl ⟨.coreReset o, rfl⟩
    · exact .inr (.inr (.inr (hidle.imp (congrArg _) (congrArg _))))
  | byteIn b => exact .inl ⟨.pushByte b, rfl⟩

/-- Settles O2: a word that decodes is the word of some operation, and decoding that word gives this one operation. -/
theorem decodedWordIsEncoded : Obligations.DecodedWordIsEncoded := by
  intro r i h
  rcases request_cases r with ⟨j, rfl⟩ | hreserved | hidle
  · obtain rfl : j = i := by simpa using h
    rfl
  · simp [hreserved.decode_eq] at h
  · simp [hidle.decode_eq] at h

/-- A word that the decoder rejects is reserved or idle, as the reason given says. -/
theorem decode_error_cases {r : Request} {e : DecodeError} (h : decode r = .error e) :
    (e = .reservedAmplitude ∧ ReservedWord r) ∨ (e = .idle ∧ IdleWord r) := by
  rcases request_cases r with ⟨i, rfl⟩ | hreserved | hidle
  · simp at h
  · exact .inl ⟨by simpa [hreserved.decode_eq] using h.symm, hreserved⟩
  · exact .inr ⟨by simpa [hidle.decode_eq] using h.symm, hidle⟩

theorem decode_eq_reservedAmplitude_iff (r : Request) : decode r = .error .reservedAmplitude ↔ ReservedWord r :=
  ⟨fun h => by simpa using decode_error_cases h, ReservedWord.decode_eq⟩

theorem decode_eq_idle_iff (r : Request) : decode r = .error .idle ↔ IdleWord r :=
  ⟨fun h => by simpa using decode_error_cases h, IdleWord.decode_eq⟩

/-- Settles O3: the words that are no operation's are the two reserved codes and the three idle words. -/
theorem rejectedWordsExactly : Obligations.RejectedWordsExactly :=
  ⟨decode_eq_reservedAmplitude_iff, decode_eq_idle_iff⟩

/-- Settles O4: each word written out is the encoder's word of its row, so it decodes to that row. -/
theorem patternWordsDecode : Obligations.PatternWordsDecode :=
  ⟨decode_encode (.expandLE 0x12#8), decode_encode (.expandBE 0x12#8), decode_encode .new, decode_encode .encodeNextP,
    decode_encode .encodeNextM, decode_encode (.coreReset .littleEndianBits), decode_encode (.coreReset .bigEndianBits),
    decode_encode (.pushByte 0xEF#8)⟩

end Sys2Proof

namespace Sys2Proof.Machine

/-- Issuing a word that selects no operation runs none (R44, R47). -/
theorem issue_of_decode_error {r : Request} {e : DecodeError} (h : decode r = .error e) (s : State) :
    issue r s = rejectWord e s := by
  simp [issue, h]

theorem rejectWord_idle (s : State) : rejectWord .idle s = .next s := rfl

/-- Settles O30: the step takes the word, and issuing an idle word changes nothing. -/
theorem idleWordChangesNothing : Obligations.IdleWordChangesNothing := by
  intro s r rest hreq hidle
  rw [step_word hreq, issue_of_decode_error hidle, rejectWord_idle]

end Sys2Proof.Machine

/-! PROOFS. The bit_expander family (spec/40_bit_expander.md rules R51 to R60). First the lanes of its result word and the
sum of its amplitudes (R52, R53, R58), which need one lane at a time. -/

namespace Sys2Proof.Machine

theorem exec_expandLE (b : Byte) (s : State) :
    exec (.expandLE b) s = .next { s with result := .ampBus (expandWord b .littleEndianBits) } := rfl

theorem exec_expandBE (b : Byte) (s : State) :
    exec (.expandBE b) s = .next { s with result := .ampBus (expandWord b .bigEndianBits) } := rfl

/-- A bit of a lane, in the word (R41). -/
theorem getLsbD_laneOf (w : AmpBus) (i : Nat) {k : Nat} (hk : k < 2) :
    (laneOf w i).getLsbD k = w.getLsbD (2 * i + k) := by
  rw [laneOf, BitVec.getLsbD_extractLsb', decide_eq_true hk, Bool.true_and]

/-- A lane as its two bits, the sign bit first (R40, R41). -/
theorem laneOf_eq_append (w : AmpBus) (i : Nat) :
    laneOf w i = BitVec.ofBool (w.getLsbD (2 * i + 1)) ++ BitVec.ofBool (w.getLsbD (2 * i)) := by
  refine BitVec.eq_of_getLsbD_eq fun k hk => ?_
  rw [getLsbD_laneOf w i hk, BitVec.getLsbD_append]
  obtain rfl | rfl : k = 0 ∨ k = 1 := by omega
  · simp
  · simp

/-- A word is determined by its eight lanes (R41). -/
theorem ampBus_ext {w w' : AmpBus} (h : ∀ i < 8, laneOf w i = laneOf w' i) : w = w' := by
  refine BitVec.eq_of_getLsbD_eq fun k hk => ?_
  have hbit : ∀ v : AmpBus, v.getLsbD k = (laneOf v (k / 2)).getLsbD (k % 2) := fun v => by
    rw [getLsbD_laneOf v _ (Nat.mod_lt k (by decide)), Nat.div_add_mod]
  rw [hbit w, hbit w', h (k / 2) (by omega)]

/-- The first lane of a packed word is the code of the first amplitude. -/
theorem laneOf_packLanes_zero (x : Amplitude) (xs : List Amplitude) : laneOf (packLanes (x :: xs)) 0 = ampCode x := by
  refine BitVec.eq_of_getLsbD_eq fun k hk => ?_
  rw [getLsbD_laneOf _ _ hk, packLanes, BitVec.getLsbD_or, BitVec.getLsbD_shiftLeft, BitVec.getLsbD_setWidth]
  simp [hk, show k < 16 by omega]

/-- The other lanes of a packed word are those of the word packed without its first amplitude. -/
theorem laneOf_packLanes_succ (x : Amplitude) (xs : List Amplitude) {i : Nat} (hi : i + 1 < 8) :
    laneOf (packLanes (x :: xs)) (i + 1) = laneOf (packLanes xs) i := by
  refine BitVec.eq_of_getLsbD_eq fun k hk => ?_
  have hcode : (ampCode x).getLsbD (2 * i + k + 2) = false := BitVec.getLsbD_of_ge _ _ (by omega)
  rw [getLsbD_laneOf _ _ hk, getLsbD_laneOf _ _ hk, show 2 * (i + 1) + k = 2 * i + k + 2 by omega, packLanes,
    BitVec.getLsbD_or, BitVec.getLsbD_shiftLeft, BitVec.getLsbD_setWidth, hcode, Nat.add_sub_cancel]
  simp [show 2 * i + k + 2 < 16 by omega]

/-- Lane `i` of a packed word is the code of amplitude `i` (R41). -/
theorem laneOf_packLanes {xs : List Amplitude} {i : Nat} (hlen : i < xs.length) (hi : i < 8) :
    laneOf (packLanes xs) i = ampCode xs[i] := by
  induction xs generalizing i with
  | nil => simp at hlen
  | cons x xs ih =>
    cases i with
    | zero => exact laneOf_packLanes_zero x xs
    | succ i => rw [laneOf_packLanes_succ x xs hi, ih (by simpa using hlen) (by omega), List.getElem_cons_succ]

theorem expand_eq_map_range (b : Byte) (o : BitOrder) :
    expand b o = (List.range 8).map fun i => signMap (selBit o b i) := rfl

theorem expand_getElem {b : Byte} {o : BitOrder} {i : Nat} (h : i < (expand b o).length) :
    (expand b o)[i] = signMap (selBit o b i) := by
  simp [expand_eq_map_range]

theorem expand_getD (b : Byte) (o : BitOrder) {i : Nat} (hi : i < 8) :
    (expand b o).getD i .minus = signMap (selBit o b i) := by
  simp [expand_eq_map_range, hi]

/-- Lane `i` of EXPAND's word is the code of the amplitude that its one selected bit stands for (R54, R55). -/
theorem laneOf_expandWord (b : Byte) (o : BitOrder) {i : Nat} (hi : i < 8) :
    laneOf (expandWord b o) i = ampCode (signMap (selBit o b i)) := by
  rw [expandWord, laneOf_packLanes (by simpa using hi) hi, expand_getElem]

/-- The code of a sign-mapped bit is the bit's complement followed by 1 (R55). -/
theorem ampCode_signMap (bit : Bool) : ampCode (signMap bit) = BitVec.ofBool (!bit) ++ 1#1 := by
  cases bit <;> rfl

/-- The code of an amplitude is its two's complement form (R40). -/
theorem ampCode_toInt (x : Amplitude) : (ampCode x).toInt = ampValue x := by
  cases x <;> rfl

/-- A bit of a byte by shift and mask, as R52 writes it. -/
theorem toNat_getLsbD (b : Byte) (i : Nat) : (b.getLsbD i).toNat = (b.toNat >>> i) &&& 1 := by
  rw [← BitVec.testBit_toNat, Nat.toNat_testBit, Nat.and_one_is_mod, Nat.shiftRight_eq_div_pow]

/-- A lane of EXPAND's word, read as an integer, is twice the selected bit less one (R52, R53). -/
theorem laneOf_expandWord_toInt (b : Byte) (o : BitOrder) {i : Nat} (hi : i < 8) :
    (laneOf (expandWord b o) i).toInt = 2 * ((selBit o b i).toNat : Int) - 1 := by
  rw [laneOf_expandWord b o hi, ampCode_toInt, ampValue_signMap]

/-- Settles O5: the lane reads bit `i` of the byte. -/
theorem expandLEResult : Obligations.ExpandLEResult := by
  intro b s
  refine ⟨expandWord b .littleEndianBits, exec_expandLE b s, fun i hi => ?_, decode_req_zero_append b⟩
  rw [laneOf_expandWord_toInt b _ hi, selBit, toNat_getLsbD]

/-- Settles O6: the lane reads bit `7 - i` of the byte. -/
theorem expandBEResult : Obligations.ExpandBEResult := by
  intro b s
  refine ⟨expandWord b .bigEndianBits, exec_expandBE b s, fun i hi => ?_, decode_req_one_append b⟩
  rw [laneOf_expandWord_toInt b _ hi, selBit, toNat_getLsbD]

/-- A sum of amplitudes from the number of those that are +1. -/
theorem ampSum_eq_count (xs : List Amplitude) : ampSum xs = 2 * (xs.count .plus : Int) - xs.length := by
  induction xs with
  | nil => rfl
  | cons x xs ih =>
    rw [ampSum_cons, ih, List.length_cons]
    cases x with
    | plus =>
      rw [List.count_cons_self, ampValue]
      omega
    | minus =>
      rw [List.count_cons_of_ne (by decide), ampValue]
      omega

/-- As many amplitudes are +1 as the byte has 1 bits, under either order (R58). -/
theorem expand_count_plus (b : Byte) (o : BitOrder) : (expand b o).count .plus = popcount b := by
  have hsum := ampSum_eq_count (expand b o)
  rw [ampSum_expand, expand_length] at hsum
  omega

theorem popcount_le_eight (b : Byte) : popcount b ≤ 8 :=
  expand_count_plus b .littleEndianBits ▸ List.count_le_length

/-- Settles O8: lane by lane the word holds the code of +1 or of -1, and the amplitudes' sum counts those that are +1. -/
theorem amplitudeDomain : Obligations.AmplitudeDomain := by
  intro b o
  refine ⟨fun i hi => ?_, eq_of_beq (expandWord_wellFormed b o), expand_length b o, expand_count_plus b o,
    ampSum_expand b o, ?_⟩
  · rw [laneOf_expandWord b o hi]
    cases signMap (selBit o b i) with
    | plus => exact .inl rfl
    | minus => exact .inr rfl
  · have hle := popcount_le_eight b
    rw [ampSum_expand]
    omega

end Sys2Proof.Machine

/-! PROOFS. The words that rules R55 and R60 of spec/40_bit_expander.md write as sums of powers of two: `rev8`, `spread` and
`collapse`, each read back bit by bit. -/

namespace Sys2Proof.Machine

/-- The number that the bits `f 0` to `f (n - 1)` write, the lowest first. -/
def bitSum (n : Nat) (f : Nat → Bool) : Nat := ((List.range n).map fun i => (f i).toNat * 2 ^ i).sum

theorem bitSum_succ (n : Nat) (f : Nat → Bool) : bitSum (n + 1) f = bitSum n f + (f n).toNat * 2 ^ n := by
  simp [bitSum, List.range_succ]

/-- `bitSum` is the library's number of a function on `Fin n`. -/
theorem bitSum_eq_ofBits (n : Nat) (f : Nat → Bool) : bitSum n f = Nat.ofBits fun i : Fin n => f i := by
  induction n generalizing f with
  | zero => rfl
  | succ n ih =>
    have htail : bitSum (n + 1) f = (f 0).toNat + 2 * bitSum n fun i => f (i + 1) := by
      simp [bitSum, List.range_succ_eq_map, Function.comp_def, pow_succ', mul_left_comm _ 2, List.sum_map_mul_left]
    rw [htail, ih, Nat.ofBits_succ, Nat.add_comm]
    rfl

/-- The word written by `n` bits has these bits. -/
theorem getLsbD_ofNat_bitSum {n i : Nat} (f : Nat → Bool) (hi : i < n) :
    (BitVec.ofNat n (bitSum n f)).getLsbD i = f i := by
  rw [BitVec.getLsbD_ofNat, bitSum_eq_ofBits, Nat.testBit_ofBits_lt _ _ hi, decide_eq_true hi, Bool.true_and]

/-- The bits of a byte write it. -/
theorem bitSum_getLsbD (b : Byte) : bitSum 8 b.getLsbD = b.toNat := by
  rw [bitSum_eq_ofBits]
  calc Nat.ofBits (fun i : Fin 8 => b.toNat.testBit i) = b.toNat % 2 ^ 8 := Nat.ofBits_testBit ..
    _ = b.toNat := Nat.mod_eq_of_lt b.isLt

theorem bitSum_congr {n : Nat} {f g : Nat → Bool} (h : ∀ i < n, f i = g i) : bitSum n f = bitSum n g := by
  refine congrArg List.sum (List.map_congr_left fun i hi => ?_)
  rw [h i (List.mem_range.mp hi)]

/-- A sum over the eight positions is the sum over the same positions from the last to the first. -/
theorem sum_range_eight_reverse {f g : Nat → Nat} (h : ∀ i < 8, g i = f (7 - i)) :
    ((List.range 8).map g).sum = ((List.range 8).map f).sum := by
  have hmap : (List.range 8).map g = ((List.range 8).map f).reverse :=
    List.map_congr_left fun i hi => h i (List.mem_range.mp hi)
  rw [hmap, List.sum_reverse]

/-- `rev8` writes the bits from the last to the first (R55). -/
theorem rev8_eq_ofNat_bitSum (b : Byte) : rev8 b = BitVec.ofNat 8 (bitSum 8 fun i => b.getLsbD (7 - i)) := by
  refine congrArg (BitVec.ofNat 8) (sum_range_eight_reverse fun i hi => ?_)
  simp only [Nat.sub_sub_self (Nat.le_of_lt_succ hi)]

theorem getLsbD_rev8 (b : Byte) {i : Nat} (hi : i < 8) : (rev8 b).getLsbD i = b.getLsbD (7 - i) := by
  rw [rev8_eq_ofNat_bitSum, getLsbD_ofNat_bitSum _ hi]

/-- The order selects bits as the other order does on the reversed byte (R54, R59). -/
theorem selBit_big_eq_rev8 (b : Byte) {i : Nat} (hi : i < 8) :
    selBit .bigEndianBits b i = selBit .littleEndianBits (rev8 b) i :=
  (getLsbD_rev8 b hi).symm

/-- Big-endian selects the bits `7` down to `0`, where little-endian selects `0` up to `7` (R59). -/
theorem expand_big_eq_reverse (b : Byte) : expand b .bigEndianBits = (expand b .littleEndianBits).reverse := rfl

theorem expand_big_eq_rev8 (b : Byte) : expand b .bigEndianBits = expand (rev8 b) .littleEndianBits :=
  List.map_congr_left fun _ hi => congrArg signMap (selBit_big_eq_rev8 b (List.mem_range.mp hi))

/-- Settles O9: both ways round, lane `i` reads bit `7 - i`. -/
theorem bigEndianIsReversed : Obligations.BigEndianIsReversed :=
  fun b => ⟨expand_big_eq_reverse b, expand_big_eq_rev8 b⟩

/-- The bits of `spread`: those of `f` at the even positions, zeros at the odd ones (R55). -/
def evenBits (f : Nat → Bool) (k : Nat) : Bool := decide (k % 2 = 0) && f (k / 2)

/-- Weighting bit `k` by the power `2 k` writes the word with that bit at position `2 k`. -/
theorem bitSum_evenBits (n : Nat) (f : Nat → Bool) :
    bitSum (2 * n) (evenBits f) = ((List.range n).map fun k => (f k).toNat * 2 ^ (2 * k)).sum := by
  induction n with
  | zero => rfl
  | succ n ih =>
    have heven : evenBits f (2 * n) = f n := by simp [evenBits]
    have hodd : evenBits f (2 * n + 1) = false := by simp [evenBits]
    rw [Nat.mul_succ, bitSum_succ, bitSum_succ, heven, hodd, ih, List.range_succ]
    simp

theorem getLsbD_spread (v : Byte) {k : Nat} (hk : k < 16) : (spread v).getLsbD k = evenBits v.getLsbD k := by
  rw [spread, ← bitSum_evenBits, getLsbD_ofNat_bitSum _ hk]

/-- Lane `i` of R55's word: the bit of the spread byte, moved to the sign position, followed by the pattern's 1. -/
theorem laneOf_pattern_or_spread (v : Byte) {i : Nat} (hi : i < 8) :
    laneOf (0x5555#16 ||| (spread v <<< 1)) i = BitVec.ofBool (v.getLsbD i) ++ 1#1 := by
  have hpattern : ∀ i < 8, (0x5555#16).getLsbD (2 * i) = true ∧ (0x5555#16).getLsbD (2 * i + 1) = false := by decide
  obtain ⟨hone, hzero⟩ := hpattern i hi
  have hsign : (spread v <<< 1).getLsbD (2 * i + 1) = v.getLsbD i := by
    rw [BitVec.getLsbD_shiftLeft, Nat.add_sub_cancel, getLsbD_spread v (by omega)]
    simp [evenBits, show 2 * i + 1 < 16 by omega]
  rw [laneOf_eq_append, BitVec.getLsbD_or, BitVec.getLsbD_or, hone, hzero, hsign, Bool.true_or, Bool.false_or]
  rfl

/-- Under little-endian the word has R55's closed form. -/
theorem expandWord_little (b : Byte) :
    expandWord b .littleEndianBits = 0x5555#16 ||| (spread (~~~b) <<< 1) := by
  refine ampBus_ext fun i hi => ?_
  rw [laneOf_expandWord b _ hi, ampCode_signMap, laneOf_pattern_or_spread _ hi, selBit, BitVec.getLsbD_not,
    decide_eq_true hi, Bool.true_and]

/-- Settles O7: a lane is the code of its selected bit, and big-endian is little-endian on the reversed byte. -/
theorem expandWordClosedForm : Obligations.ExpandWordClosedForm := by
  refine ⟨fun b i hi => ⟨?little, ?big⟩, expandWord_little, fun b => ?word⟩
  case little => rw [laneOf_expandWord b _ hi, ampCode_signMap, selBit]
  case big => rw [laneOf_expandWord b _ hi, ampCode_signMap, selBit]
  case word => rw [expandWord, expand_big_eq_rev8, ← expandWord, expandWord_little]

theorem ampBit_eq_toNat (x : Amplitude) : ampBit x = (decide (x = .plus)).toNat := by
  cases x <;> rfl

theorem decide_signMap_eq_plus (bit : Bool) : decide (signMap bit = .plus) = bit := by
  cases bit <;> rfl

theorem signMap_decide_eq_plus (x : Amplitude) : signMap (decide (x = .plus)) = x := by
  cases x <;> rfl

/-- Under little-endian, `collapse` is the number that the amplitudes write (R60). -/
theorem collapse_little (xs : List Amplitude) :
    collapse xs .littleEndianBits = bitSum 8 fun i => decide (xs.getD i .minus = .plus) := by
  simp only [collapse, ampBit_eq_toNat, bitSum]

/-- Under big-endian, `collapse` reads the amplitudes from the last to the first (R60). -/
theorem collapse_big {xs : List Amplitude} (hlen : xs.length = 8) :
    collapse xs .bigEndianBits = collapse xs.reverse .littleEndianBits := by
  refine sum_range_eight_reverse fun i hi => ?_
  have hget : xs.reverse.getD (7 - i) .minus = xs.getD i .minus := by
    rw [List.getD_eq_getElem?_getD, List.getElem?_reverse (by omega), hlen, show 8 - 1 - (7 - i) = i by omega,
      ← List.getD_eq_getElem?_getD]
  simp only [hget]

theorem collapse_expand_little (b : Byte) : collapse (expand b .littleEndianBits) .littleEndianBits = b.toNat := by
  have hbit : ∀ i < 8, decide ((expand b .littleEndianBits).getD i .minus = .plus) = b.getLsbD i := fun i hi => by
    rw [expand_getD b _ hi, decide_signMap_eq_plus, selBit]
  rw [collapse_little, bitSum_congr hbit, bitSum_getLsbD]

/-- The byte reads back from its amplitudes under either order (R60). -/
theorem collapse_expand (b : Byte) (o : BitOrder) : collapse (expand b o) o = b.toNat := by
  cases o with
  | littleEndianBits => exact collapse_expand_little b
  | bigEndianBits =>
    rw [collapse_big (expand_length b _), expand_big_eq_reverse, List.reverse_reverse, collapse_expand_little]

theorem expand_injective (o : BitOrder) : Function.Injective fun b => expand b o := by
  intro b b' h
  refine BitVec.eq_of_toNat_eq ?_
  rw [← collapse_expand b o, ← collapse_expand b' o, show expand b o = expand b' o from h]

/-- Eight amplitudes are the little-endian expansion of the byte they collapse to (R60). -/
theorem expand_collapse_little {xs : List Amplitude} (hlen : xs.length = 8) :
    expand (BitVec.ofNat 8 (collapse xs .littleEndianBits)) .littleEndianBits = xs := by
  refine List.ext_getElem (by simp [hlen]) fun i hi hi' => ?_
  rw [expand_getElem, selBit, collapse_little, getLsbD_ofNat_bitSum _ (hlen ▸ hi'), signMap_decide_eq_plus,
    ← List.getElem_eq_getD (h := hi')]

/-- Eight amplitudes are the expansion of the byte they collapse to, under either order (R60). -/
theorem expand_collapse {xs : List Amplitude} (o : BitOrder) (hlen : xs.length = 8) :
    expand (BitVec.ofNat 8 (collapse xs o)) o = xs := by
  cases o with
  | littleEndianBits => exact expand_collapse_little hlen
  | bigEndianBits =>
    rw [collapse_big hlen, expand_big_eq_reverse, expand_collapse_little (by simp [hlen]), List.reverse_reverse]

/-- Settles O10: `collapse` undoes EXPAND, and EXPAND undoes `collapse` on eight amplitudes. -/
theorem amplitudeRoundTrip : Obligations.AmplitudeRoundTrip :=
  ⟨collapse_expand, fun _ _ o h => expand_injective o h, fun _ o hlen => ⟨_, expand_collapse o hlen⟩⟩

end Sys2Proof.Machine

/-! PROOFS. The delta_encoder family (spec/41_delta_encoder.md rules R62 to R75). First NEW, and what else can give `ACC` a
value (R16, R62). -/

namespace Sys2Proof.Machine

theorem exec_new (s : State) : exec .new s = .next (startSession s) := rfl

/-- Only an operation that starts a session completes without a value in `ACC` and leaves one there. -/
theorem exec_gives_acc {i : Instr} {s t : State} (hnone : s.acc = none) (h : exec i s = .next t) (hsome : t.acc ≠ none) :
    i = .new ∨ ∃ o, i = .coreReset o := by
  rcases exec_next_cases h with ⟨b, o, rfl⟩ | ⟨hi, -⟩ | ⟨o, hi, -⟩ | ⟨a, x, ha, -⟩ | ⟨a, o, b, ha, -, -⟩
  · exact absurd hnone hsome
  · exact .inl hi
  · exact .inr ⟨o, hi⟩
  · simp [hnone] at ha
  · simp [hnone] at ha

/-- Settles O11: NEW is `startSession`, and neither the host's side nor an idle word gives `ACC` a value. -/
theorem newResult : Obligations.NewResult := by
  refine ⟨exec_new, decode_encode .new, fun s t hnone hstep hsome => ?_⟩
  rcases step_next_cases hstep with ⟨-, rfl⟩ | ⟨r, rest, i, u, hreq, hdec, hexec, rfl⟩ | ⟨r, rest, -, -, rfl⟩
  · exact absurd ((hostMove_frame s).1.trans hnone) hsome
  · rw [(deliver_frame u).1] at hsome
    rw [decodedWordIsEncoded r i hdec] at hreq
    rcases exec_gives_acc (s := { s with requests := rest }) hnone hexec hsome with rfl | ⟨o, rfl⟩
    · exact ⟨rest, .inl hreq⟩
    · exact ⟨rest, .inr ⟨o, hreq⟩⟩
  · exact absurd hnone hsome

end Sys2Proof.Machine

/-! PROOFS. One ENCODE_NEXT: the next accumulator in closed form under each remainder, and what the operation answers on this
hardware (rules R63 to R66). -/

namespace Sys2Proof.Machine

/-- Both remainders keep the residue modulo 255. -/
theorem reduce_emod (m : ModSem) (t : Int) : reduce m t % 255 = t % 255 := by
  cases m with
  | floor => exact Int.emod_emod t 255
  | trunc =>
    have hdiv := Int.tmod_add_mul_tdiv t 255
    rw [reduce_trunc]
    omega

/-- The truncating remainder leaves an integer of smaller magnitude than 255 as it is, whatever its sign. -/
theorem reduce_trunc_of_natAbs_le {t : Int} (h : t.natAbs ≤ 254) : reduce .trunc t = t := by
  rw [reduce_trunc]
  rcases Int.le_total 0 t with hpos | hneg
  · exact Int.tmod_eq_of_lt hpos (by omega)
  · have hflip : (-t).tmod 255 = -t := Int.tmod_eq_of_lt (by omega) (by omega)
    rw [Int.neg_tmod] at hflip
    omega

/-- Where the sum needs no reduction, the register adds the amplitude. -/
theorem encodeNext_acc_of_reduce_eq {p : Params} {a : AccWord} {x : Amplitude}
    (h : reduce p.modSem (a.toInt + ampValue x) = a.toInt + ampValue x) :
    (encodeNext p a x).1 = a + BitVec.ofInt 9 (ampValue x) := by
  calc (encodeNext p a x).1 = BitVec.ofInt 9 (a.toInt + ampValue x) := congrArg (BitVec.ofInt 9) h
    _ = a + BitVec.ofInt 9 (ampValue x) := by rw [BitVec.ofInt_add, BitVec.ofInt_toInt]

/-- Where the sum reduces to zero, the register holds zero. -/
theorem encodeNext_acc_of_reduce_eq_zero {p : Params} {a : AccWord} {x : Amplitude}
    (h : reduce p.modSem (a.toInt + ampValue x) = 0) : (encodeNext p a x).1 = 0#9 :=
  congrArg (BitVec.ofInt 9) h

/-- +1 under FLOOR: only 254 wraps (R64). -/
theorem encodeNext_floor_plus {p : Params} (hp : p.modSem = .floor) {a : AccWord} (lo : 0 ≤ a.toInt)
    (hi : a.toInt ≤ 254) : (encodeNext p a .plus).1 = if a = 254#9 then 0#9 else a + 1#9 := by
  split
  next htop =>
    subst htop
    exact encodeNext_acc_of_reduce_eq_zero (by rw [hp]; rfl)
  next hother =>
    have hne : a.toInt ≠ 254 := fun h => hother (BitVec.eq_of_toInt_eq h)
    refine encodeNext_acc_of_reduce_eq ?_
    rw [hp, reduce_floor, ampValue]
    omega

/-- -1 under FLOOR: only 0 wraps (R65). -/
theorem encodeNext_floor_minus {p : Params} (hp : p.modSem = .floor) {a : AccWord} (lo : 0 ≤ a.toInt)
    (hi : a.toInt ≤ 254) : (encodeNext p a .minus).1 = if a = 0#9 then 254#9 else a - 1#9 := by
  split
  next hzero =>
    subst hzero
    refine BitVec.eq_of_toInt_eq ?_
    rw [encodeNext_acc, hp]
    rfl
  next hother =>
    have hne : a.toInt ≠ 0 := fun h => hother (BitVec.eq_of_toInt_eq h)
    rw [BitVec.sub_eq_add_neg]
    refine encodeNext_acc_of_reduce_eq ?_
    rw [hp, reduce_floor, ampValue]
    omega

theorem ampValue_cases (x : Amplitude) : ampValue x = 1 ∨ ampValue x = -1 := by
  cases x with
  | plus => exact .inl rfl
  | minus => exact .inr rfl

/-- Either amplitude under TRUNC: only a step beyond 254 in its own direction goes back to zero (R66). -/
theorem encodeNext_trunc {p : Params} (hp : p.modSem = .trunc) {a : AccWord} (lo : -254 ≤ a.toInt)
    (hi : a.toInt ≤ 254) (x : Amplitude) :
    (encodeNext p a x).1 = if a.toInt = 254 * ampValue x then 0#9 else a + BitVec.ofInt 9 (ampValue x) := by
  split
  next hlast =>
    have hsum : a.toInt + ampValue x = 255 * ampValue x := by omega
    exact encodeNext_acc_of_reduce_eq_zero (by rw [hp, hsum, reduce_trunc, Int.mul_tmod_right])
  next hother =>
    have hx := ampValue_cases x
    exact encodeNext_acc_of_reduce_eq (by rw [hp, reduce_trunc_of_natAbs_le (by omega)])

/-- On this hardware the one sample is zero. -/
theorem encodeNextInto_hardware (x : Amplitude) {s : State} {a : AccWord} (ha : s.acc = some a) :
    encodeNextInto hardware x s =
      .next { s with acc := some (encodeNext hardware a x).1, result := .samples [0x00#8] } := by
  rw [encodeNextInto_of_acc hardware x ha, encodeNext_sample, quantise_hardware]

/-- Settles O12: on 0 to 254 the flooring sum wraps at 254 alone, and the sample is zero. -/
theorem encodeNextPResult : Obligations.EncodeNextPResult := by
  refine ⟨fun s a ha lo hi => ?_, fun s h => encodeNextInto_of_acc_none hardware .plus h, decode_encode .encodeNextP⟩
  rw [exec_encodeNextP, encodeNextInto_hardware .plus ha, encodeNext_floor_plus rfl lo hi]

/-- Settles O13: on 0 to 254 the flooring difference wraps at 0 alone, and the sample is zero. -/
theorem encodeNextMResult : Obligations.EncodeNextMResult := by
  refine ⟨fun s a ha lo hi => ?_, fun s h => encodeNextInto_of_acc_none hardware .minus h, decode_encode .encodeNextM⟩
  rw [exec_encodeNextM, encodeNextInto_hardware .minus ha, encodeNext_floor_minus rfl lo hi]

/-- The arithmetic of one ENCODE_NEXT with this hardware's parameters (R63, R67). -/
theorem encodeNext_hardware (a : AccWord) (x : Amplitude) :
    encodeNext hardware a x = (BitVec.ofInt 9 ((a.toInt + ampValue x) % 255),
      BitVec.ofInt 8 ((a.toInt + ampValue x) % 255 * 8388608)) := rfl

/-- Settles O14: wherever `ACC` holds a value both rows complete with the hardware's arithmetic on it. -/
theorem encodeNextAnyAcc : Obligations.EncodeNextAnyAcc := by
  intro s a ha
  rw [exec_encodeNextP, exec_encodeNextM, encodeNextInto_of_acc hardware .plus ha,
    encodeNextInto_of_acc hardware .minus ha, encodeNext_hardware, encodeNext_hardware]
  exact ⟨rfl, rfl⟩

/-- An integer of the nine-bit range reads back from every register of nine bits or more. -/
theorem toInt_ofInt_of_nine_le {w : Nat} (hw : 9 ≤ w) {n : Int} (lo : -256 ≤ n) (hi : n ≤ 255) :
    (BitVec.ofInt w n).toInt = n := by
  have hpow : (2 : Int) ^ 8 ≤ 2 ^ (w - 1) := pow_le_pow_right₀ (by decide) (by omega)
  exact BitVec.toInt_ofInt_eq_self (by omega) (by omega) (by omega)

/-- Settles O16: the remainders' own bounds, and a sum of at most 255 in magnitude. -/
theorem accRangeKept : Obligations.AccRangeKept := by
  intro scale a x
  refine ⟨fun _ _ => encodeNext_floor_range rfl a x, fun _ _ => ?_, fun lo hi w hw => ?_⟩
  · rw [encodeNext_acc]
    exact reduce_bounds ..
  · have hx := ampValue_cases x
    rw [← BitVec.ofInt_add]
    exact toInt_ofInt_of_nine_le hw (by omega) (by omega)

end Sys2Proof.Machine

/-! PROOFS. The quantiser: the sample is a product in eight bits, so only the low byte of `SCALE` counts and no wider product
register can be told apart (rules R67, R70 to R72). -/

namespace Sys2Proof.Machine

/-- The low byte of the product is the product of the low bytes. -/
theorem quantise_eq_mul (scale : Nat) (acc : Int) :
    quantise scale acc = BitVec.ofInt 8 acc * BitVec.ofNat 8 scale := by
  rw [quantise, low8, BitVec.ofInt_mul, BitVec.ofInt_natCast]

theorem quantise_one_eq_zero_iff (scale : Nat) : quantise scale 1 = 0x00#8 ↔ 256 ∣ scale := by
  rw [quantise_eq_mul, show BitVec.ofInt 8 1 = 1#8 from rfl, BitVec.one_mul, ← BitVec.toNat_inj, BitVec.toNat_ofNat]
  exact Nat.dvd_iff_mod_eq_zero.symm

/-- With this hardware's `SCALE` and either remainder every sample is zero (R70). -/
theorem encodeLanes_samples_hardware (m : ModSem) (a : AccWord) (xs : List Amplitude) :
    (encodeLanes { hardware with modSem := m } a xs).2 = List.replicate xs.length 0x00#8 :=
  encodeLanes_samples_of_scale (p := { hardware with modSem := m }) rfl a xs

/-- Settles O17: a product of low bytes; the accumulator 1 shows the low byte of `SCALE` itself. -/
theorem everySampleIsZero : Obligations.EverySampleIsZero := by
  refine ⟨encodeLanes_samples_hardware, fun scale acc => ?lowByte,
    fun scale => ⟨fun h => (quantise_one_eq_zero_iff scale).mp (h 1), fun h acc => ?multiple⟩⟩
  case lowByte =>
    have hlow : BitVec.ofNat 8 scale = BitVec.ofNat 8 (scale % 256) := BitVec.eq_of_toNat_eq (by simp)
    rw [quantise_eq_mul, hlow, ← quantise_eq_mul]
  case multiple =>
    obtain ⟨k, rfl⟩ := h
    have hlow : BitVec.ofNat 8 (256 * k) = 0#8 := BitVec.eq_of_toNat_eq (by simp)
    rw [quantise_eq_mul, hlow, BitVec.mul_zero]

/-- The low bits of an integer's two's complement form do not depend on the width it is held in. -/
theorem setWidth_ofInt_of_le {v w : Nat} (h : v ≤ w) (n : Int) : (BitVec.ofInt w n).setWidth v = BitVec.ofInt v n := by
  cases n with
  | ofNat n =>
    simp only [Int.ofNat_eq_natCast, BitVec.ofInt_natCast]
    exact BitVec.setWidth_ofNat_of_le h n
  | negSucc n =>
    rw [BitVec.ofInt_negSucc_eq_not_ofNat, BitVec.setWidth_not h, BitVec.setWidth_ofNat_of_le h,
      BitVec.ofInt_negSucc_eq_not_ofNat]

/-- Settles O18: narrowing keeps the low byte, and 254 times `SCALE` is below `2 ^ 31`. -/
theorem productWidthUnobservable : Obligations.ProductWidthUnobservable :=
  ⟨fun _ scale acc hw => setWidth_ofInt_of_le hw (acc * (scale : Int)),
    fun _ lo hi => BitVec.toInt_ofInt_eq_self (by decide) (by norm_num; omega) (by norm_num; omega)⟩

/-- Settles O19: the accumulator reads back as the reduced sum that the sample was made from. -/
theorem sampleFromUpdatedAcc : Obligations.SampleFromUpdatedAcc :=
  ⟨fun p a x => by rw [encodeNext_sample, encodeNext_acc], by decide⟩

end Sys2Proof.Machine

/-! PROOFS. Sequences of amplitudes: the residue of the accumulator under either remainder, its value under FLOOR, and its
value under TRUNC as long as no reduction can happen (rules R66 and R75). -/

namespace Sys2Proof.Machine

/-- Under either remainder the accumulator is the starting value plus the sum, modulo 255. -/
theorem encodeLanes_acc_emod (p : Params) (a : AccWord) (xs : List Amplitude) :
    (encodeLanes p a xs).1.toInt % 255 = (a.toInt + ampSum xs) % 255 := by
  induction xs generalizing a with
  | nil => simp
  | cons x xs ih =>
    rw [encodeLanes_cons_acc, ih, encodeNext_acc, Int.add_emod, reduce_emod, ← Int.add_emod, ampSum_cons, Int.add_assoc]

/-- Under FLOOR an accumulator in 0 to 254 is that residue itself. -/
theorem encodeLanes_floor_toInt {p : Params} (hp : p.modSem = .floor) {a : AccWord} (lo : 0 ≤ a.toInt)
    (hi : a.toInt ≤ 254) (xs : List Amplitude) :
    (encodeLanes p a xs).1.toInt = (a.toInt + ampSum xs) % 255 := by
  obtain ⟨hlo, hhi⟩ := encodeLanes_floor_range hp xs ⟨lo, hi⟩
  rw [← encodeLanes_acc_emod p, Int.emod_eq_of_lt hlo (by omega)]

/-- Under TRUNC a sequence too short to leave -254 to 254 is summed without a reduction. -/
theorem encodeLanes_trunc_toInt {p : Params} (hp : p.modSem = .trunc) {a : AccWord} {xs : List Amplitude}
    (h : a.toInt.natAbs + xs.length ≤ 254) : (encodeLanes p a xs).1.toInt = a.toInt + ampSum xs := by
  induction xs generalizing a with
  | nil => simp
  | cons x xs ih =>
    rw [List.length_cons] at h
    have hx := ampValue_cases x
    have hone : (encodeNext p a x).1.toInt = a.toInt + ampValue x := by
      rw [encodeNext_acc, hp, reduce_trunc_of_natAbs_le (by omega)]
    rw [encodeLanes_cons_acc, ih (by omega), hone, ampSum_cons, Int.add_assoc]

theorem ampSum_replicate (n : Nat) (x : Amplitude) : ampSum (List.replicate n x) = n * ampValue x := by
  simp [ampSum]

theorem ampSum_perm {xs ys : List Amplitude} (h : xs.Perm ys) : ampSum xs = ampSum ys := (h.map ampValue).sum_eq

/-- Under FLOOR the order of the amplitudes does not matter, wherever `ACC` was (R75). -/
theorem encodeLanes_floor_perm {p : Params} (hp : p.modSem = .floor) (a : AccWord) {xs ys : List Amplitude}
    (h : xs.Perm ys) : (encodeLanes p a xs).1 = (encodeLanes p a ys).1 := by
  match xs, ys with
  | [], ys => rw [h.nil_eq]
  | xs, [] => rw [h.eq_nil]
  | x :: xs, y :: ys => rw [encodeLanes_floor_acc hp, encodeLanes_floor_acc hp, ampSum_perm h]

/-- Settles O15: TRUNC keeps the residue of the sum, and the sum itself while it is small. -/
theorem truncAlternative : Obligations.TruncAlternative := by
  refine ⟨fun scale a lo hi => ⟨encodeNext_trunc rfl lo hi .plus, ?minus⟩,
    fun scale scale' amps t f hf => ?residue, fun scale => ?trajectory, fun scale => ⟨?down, fun n hn => ?up⟩,
    fun a a' amps => ?samples⟩
  case minus =>
    rw [BitVec.sub_eq_add_neg]
    exact encodeNext_trunc rfl lo hi .minus
  case residue =>
    rw [encodeLanes_floor_toInt rfl (by omega) (by omega), hf, Int.emod_add_emod, ← encodeLanes_acc_emod]
  case trajectory =>
    have hsums : [1, 2, 3, 4, 5, 6, 7, 8].map (fun k => ampSum ((expand 0x01#8 .littleEndianBits).take k)) =
        [1, 0, -1, -2, -3, -4, -5, -6] := by decide
    rw [← hsums]
    refine List.map_congr_left fun k _ => ?_
    rw [encodeLanes_trunc_toInt rfl (by simp), BitVec.toInt_zero, Int.zero_add]
  case down => rw [encodeLanes_trunc_toInt rfl (by decide)]; rfl
  case up => rw [encodeLanes_trunc_toInt rfl (by simpa using hn), ampSum_replicate]; simp [ampValue]
  case samples => rw [encodeLanes_samples_hardware, encodeLanes_samples_of_scale rfl]

/-- Settles O20: under FLOOR all that counts of a sequence is its sum modulo 255, which 255 equal amplitudes leave at 0. -/
theorem floorSessionClosedForm : Obligations.FloorSessionClosedForm := by
  refine ⟨fun scale a amps lo hi => encodeLanes_floor_toInt rfl lo hi amps,
    fun scale a amps amps' h => encodeLanes_floor_perm rfl a h,
    fun scale a amps k hk => encodeLanes_floor_sample rfl a hk, fun scale a x lo hi => ?period, fun scale amps => ?residue⟩
  case period =>
    refine BitVec.eq_of_toInt_eq ?_
    rw [encodeLanes_floor_toInt rfl lo hi, ampSum_replicate]
    omega
  case residue => rw [encodeLanes_acc_emod, BitVec.toInt_zero, Int.zero_add]

/-- Settles O21: the model run on the scenario's one byte. -/
theorem sourceScenario : Obligations.SourceScenario :=
  ⟨rfl, by decide, encodeLanes_samples_of_scale rfl 0#9 (expand 0x01#8 .littleEndianBits)⟩

end Sys2Proof.Machine

/-! PROOFS. The dpcm_core family (spec/42_dpcm_core.md rules R77 to R88). First CORE_RESET, and what else can change
`CFG.ORDER` (R36, R77), and PUSH_BYTE with this hardware's parameters (R78). -/

namespace Sys2Proof.Machine

/-- CORE_RESET starts a session and writes its operand to `CFG.ORDER`. -/
theorem exec_coreReset (o : BitOrder) (s : State) :
    exec (.coreReset o) s = .next { startSession s with order := some o } := rfl

/-- An operation keeps `CFG.ORDER`, unless it is the CORE_RESET that gives it its value. -/
theorem exec_order {i : Instr} {s t : State} (h : exec i s = .next t) :
    t.order = s.order ∨ ∃ o, i = .coreReset o ∧ t.order = some o := by
  rcases exec_next_cases h with ⟨b, o, rfl⟩ | ⟨-, rfl⟩ | ⟨o, hi, rfl⟩ | ⟨a, x, -, rfl⟩ | ⟨a, o, b, -, -, rfl⟩
  · exact .inl rfl
  · exact .inl rfl
  · exact .inr ⟨o, hi, rfl⟩
  · exact .inl rfl
  · exact .inl rfl

/-- Settles O22: neither the host's side nor an idle word touches `CFG.ORDER`, and of the operations CORE_RESET alone
writes it. -/
theorem coreResetResult : Obligations.CoreResetResult := by
  refine ⟨exec_coreReset, decode_encode (.coreReset .littleEndianBits), decode_encode (.coreReset .bigEndianBits),
    fun s t hstep => ?_⟩
  rcases step_next_cases hstep with ⟨-, rfl⟩ | ⟨r, rest, i, u, hreq, hdec, hexec, rfl⟩ | ⟨r, rest, -, -, rfl⟩
  · exact .inl (hostMove_frame s).2.1
  · rw [(deliver_frame u).2.1]
    rcases exec_order hexec with hkept | ⟨o, rfl, ho⟩
    · exact .inl hkept
    · rw [decodedWordIsEncoded r _ hdec] at hreq
      exact .inr ⟨o, rest, hreq, ho⟩
  · exact .inl rfl

/-- PUSH_BYTE of this hardware in closed form: the byte's 1 bits alone count, whatever the order (R78). -/
theorem exec_pushByte_of_registers (b : Byte) {s : State} {a : AccWord} {o : BitOrder} (ha : s.acc = some a)
    (ho : s.order = some o) :
    exec (.pushByte b) s =
      .next { s with acc := some (BitVec.ofInt 9 ((a.toInt + 2 * (popcount b : Int) - 8) % 255)),
                     result := .samples (List.replicate 8 0x00#8) } := by
  rw [exec_pushByte, pushByteInto_of_registers hardware b ha ho, encodeLanes_floor_expand_acc rfl, ampSum_expand,
    encodeLanes_samples_of_scale rfl, expand_length, Int.add_sub_assoc]

/-- Settles O23: the closed form of the eight lanes, and the refusal where a register holds no value. -/
theorem pushByteResult : Obligations.PushByteResult :=
  ⟨fun b _ _ _ ha ho => exec_pushByte_of_registers b ha ho,
    fun b _ h => pushByteInto_of_acc_none_or_order_none hardware b h, fun b => decode_encode (.pushByte b)⟩

end Sys2Proof.Machine

/-! PROOFS. How the reference host's session ends (spec/42_dpcm_core.md rules R80 to R85, spec/60_exceptions.md rule R88): the
bytes of the input are pushed, and one more move meets the end of the stream or a fault. -/

namespace Sys2Proof.Machine

theorem hostMove_eos {s : State} {rest : InputStream} (h : s.host = .running) (hread : inRead s.input = (.eos, rest)) :
    hostMove s = { stopHost .endOfStream s with input := rest } := by
  simp [hostMove, h, hread]

theorem hostMove_readError {s : State} {rest : InputStream} (h : s.host = .running)
    (hread : inRead s.input = (.readError, rest)) :
    hostMove s = { stopHost .inputReadError s with input := rest } := by
  simp [hostMove, h, hread]

/-- From the opening of a session, its bytes and one move more, where no write of theirs fails. -/
theorem run_session_move {s : State} {o : BitOrder} {bs : List Byte} {rest : InputStream}
    (hhost : s.host = .opening o true) (hreq : s.requests = []) (hyields : Yields s.input bs rest)
    (hok : .writeError ∉ s.sinkReplies.take (8 * bs.length)) :
    core.run (2 * bs.length + 3) s = .next (hostMove (afterBytes (loopStart s o) 0 bs rest)) := by
  have hmove : step (afterBytes (loopStart s o) 0 bs rest) = .next (hostMove (afterBytes (loopStart s o) 0 bs rest)) :=
    step_no_word rfl
  rw [run_add (j := 2 * bs.length + 2) (run_session hhost hreq hyields hok) 1, run_succ hmove]
  rfl

/-- Settles O40: the input yields its bytes and then ends, so the host's last move stops it at the end of the stream. -/
theorem sessionFunction : Obligations.SessionFunction := by
  intro bs o s hhost hreq hinput hok
  have hyields : Yields s.input bs ⟨[], .ends⟩ := by
    simpa [hinput] using yields_listed bs [] .ends
  rw [run_session_move hhost hreq hyields hok, hostMove_eos rfl rfl]
  simp [stopHost, afterBytes, loopStart]

/-- Settles O42: the input yields its bytes and then a fault, so the host's last move stops it with the registers and the
output stream as the bytes left them, and a stopped host changes nothing. -/
theorem sessionReadError : Obligations.SessionReadError := by
  intro bs later tail o s hhost hreq hinput hok
  have hyields : Yields s.input bs ⟨.ioFault :: later, tail⟩ := hinput ▸ yields_listed bs (.ioFault :: later) tail
  have hrun := run_session_move hhost hreq hyields hok
  rw [hostMove_readError rfl rfl] at hrun
  refine ⟨_, hrun, rfl, rfl, rfl, ?acc, ?output, fun k => stoppedIsFinal _ k rfl (.inr ⟨.inputReadError, rfl⟩)⟩
  case acc => simp [afterBytes]
  case output => simp [afterBytes, loopStart]

end Sys2Proof.Machine

/-! PROOFS. A run of the reference host is never refused (spec/42_dpcm_core.md rule R80, spec/60_exceptions.md rules R97 and
R113): each phase of the host steps into the next one, and the registers hold values before the first byte is pushed. -/

namespace Sys2Proof.Machine

theorem refHostRun_opening_iff {s : State} {o : BitOrder} {opens : Bool} (hhost : s.host = .opening o opens) :
    RefHostRun s ↔ s.requests = [] := by
  simp [RefHostRun, hhost]

theorem refHostRun_running_iff {s : State} (hhost : s.host = .running) :
    RefHostRun s ↔ (∃ o, s.requests = [encode (.coreReset o)]) ∨
      (Ready s ∧ (s.requests = [] ∨ ∃ b, s.requests = [encode (.pushByte b)])) := by
  simp [RefHostRun, hhost]

/-- Once both registers hold a value the host is in its loop, with or without a byte in hand. -/
theorem refHostRun_of_ready {s : State} (hhost : s.host = .running) (hready : Ready s)
    (hwords : s.requests = [] ∨ ∃ b, s.requests = [encode (.pushByte b)]) : RefHostRun s :=
  (refHostRun_running_iff hhost).mpr (.inr ⟨hready, hwords⟩)

theorem refHostRun_stopped_iff {s : State} {why : StopReason} (hhost : s.host = .stopped why) :
    RefHostRun s ↔ s.requests = [] := by
  simp [RefHostRun, hhost]

theorem hostMove_opening_fails {s : State} {o : BitOrder} (h : s.host = .opening o false) :
    hostMove s = { stopHost .sinkOpenError s with output := [] } := by
  simp [hostMove, h]

/-- Opening the sink, the host has its CORE_RESET to present, or has stopped. -/
theorem refHostRun_hostMove_of_opening {s : State} {o : BitOrder} {opens : Bool} (hhost : s.host = .opening o opens)
    (hreq : s.requests = []) : RefHostRun (hostMove s) := by
  cases opens with
  | true =>
    rw [hostMove_opening hhost, refHostRun_running_iff rfl]
    exact .inl ⟨o, rfl⟩
  | false =>
    rw [hostMove_opening_fails hhost, refHostRun_stopped_iff rfl]
    simp [hreq]

/-- Reading the input, the host has a byte to present, or has stopped. -/
theorem refHostRun_hostMove_of_running {s : State} (hhost : s.host = .running) (hready : Ready s)
    (hreq : s.requests = []) : RefHostRun (hostMove s) := by
  rcases hread : inRead s.input with ⟨answer, rest⟩
  cases answer with
  | byte b =>
    rw [hostMove_byte hhost hread]
    exact refHostRun_of_ready hhost hready (.inr ⟨b, rfl⟩)
  | eos =>
    rw [hostMove_eos hhost hread, refHostRun_stopped_iff rfl]
    simp [hreq]
  | readError =>
    rw [hostMove_readError hhost hread, refHostRun_stopped_iff rfl]
    simp [hreq]

/-- Passing samples on, the host goes on, or a failed write stops it and drops the rest of its session's words. -/
theorem deliver_host_cases (s : State) :
    ((deliver s).host = s.host ∧ (deliver s).requests = s.requests) ∨
      ((deliver s).host = .stopped .sinkWriteError ∧
        (deliver s).requests = s.requests.dropWhile (fun r => !startsSession r)) := by
  by_cases h : ∃ ys, s.result = .samples ys
  · obtain ⟨ys, hys⟩ := h
    rw [deliver_samples hys]
    rcases writeAll_cases ys s with ⟨replies, e⟩ | ⟨replies, k, -, e⟩
    · exact .inl ⟨by rw [e], by rw [e]⟩
    · exact .inr ⟨by rw [e, stopHost_host], by rw [e, stopHost_requests]⟩
  · rw [deliver_quiet fun ys hys => h ⟨ys, hys⟩]
    exact .inl ⟨rfl, rfl⟩

/-- A step whose word selects an operation that completes passes that operation's samples on. -/
theorem step_of_exec {s u : State} {r : Request} {rest : List Request} {i : Instr} (hreq : s.requests = r :: rest)
    (hdec : decode r = .ok i) (hexec : exec i { s with requests := rest } = .next u) : step s = .next (deliver u) := by
  rw [stepRunsDecoded s r rest i hreq hdec, hexec]
  rfl

/-- After the samples of a byte the host is back at the head of its loop, or has stopped. -/
theorem refHostRun_deliver {s : State} (hhost : s.host = .running) (hready : Ready s) (hreq : s.requests = []) :
    RefHostRun (deliver s) := by
  rcases deliver_host_cases s with ⟨hkept, hwords⟩ | ⟨hstopped, hwords⟩
  · obtain ⟨hacc, horder, -⟩ := deliver_frame s
    refine refHostRun_of_ready (hkept.trans hhost) ?_ (.inl (hwords.trans hreq))
    rwa [Ready, hacc, horder]
  · rw [refHostRun_stopped_iff hstopped, hwords, hreq, List.dropWhile_nil]

/-- The step that presents the CORE_RESET gives both registers a value and brings the host to the head of its loop. -/
theorem refHostRun_step_coreReset {s : State} {o : BitOrder} (hhost : s.host = .running)
    (hreq : s.requests = [encode (.coreReset o)]) : ∃ t, step s = .next t ∧ RefHostRun t :=
  ⟨_, step_coreReset hreq, refHostRun_of_ready hhost ⟨rfl, rfl⟩ (.inl rfl)⟩

/-- With both registers holding a value, the step that pushes a byte is not refused. -/
theorem refHostRun_step_pushByte {s : State} {b : Byte} (hhost : s.host = .running) (hready : Ready s)
    (hreq : s.requests = [encode (.pushByte b)]) : ∃ t, step s = .next t ∧ RefHostRun t := by
  obtain ⟨hacc, horder⟩ := hready
  obtain ⟨a, ha⟩ := Option.isSome_iff_exists.mp hacc
  obtain ⟨o, ho⟩ := Option.isSome_iff_exists.mp horder
  have hexec := exec_pushByte_of_registers (s := { s with requests := [] }) b ha ho
  exact ⟨_, step_of_exec hreq (decode_encode _) hexec, refHostRun_deliver hhost ⟨rfl, horder⟩ rfl⟩

/-- Settles O39: by the phase of the host, and in its loop by the word it has to present. -/
theorem referenceHostNeverRefused : Obligations.ReferenceHostNeverRefused := by
  intro s hrun
  cases hhost : s.host with
  | direct => simp [RefHostRun, hhost] at hrun
  | opening o opens =>
    have hreq := (refHostRun_opening_iff hhost).mp hrun
    exact ⟨_, step_no_word hreq, refHostRun_hostMove_of_opening hhost hreq⟩
  | running =>
    rcases (refHostRun_running_iff hhost).mp hrun with ⟨o, hreq⟩ | ⟨hready, hreq | ⟨b, hreq⟩⟩
    · exact refHostRun_step_coreReset hhost hreq
    · exact ⟨_, step_no_word hreq, refHostRun_hostMove_of_running hhost hready hreq⟩
    · exact refHostRun_step_pushByte hhost hready hreq
  | stopped why =>
    have hreq := (refHostRun_stopped_iff hhost).mp hrun
    exact ⟨s, by rw [step_no_word hreq, hostMove_idle (.inr ⟨why, hhost⟩)], hrun⟩

end Sys2Proof.Machine

/-! PROOFS. The exceptions family (spec/60_exceptions.md). First what is refused and by which name (R97): an operation that
needs a register without a value, and a reserved amplitude code. -/

namespace Sys2Proof.Machine

theorem encodeNextInto_eq_refused_iff {p : Params} {x : Amplitude} {s : State} {why : Refusal} :
    encodeNextInto p x s = .refused why ↔ why = .notReset ∧ s.acc = none := by
  cases ha : s.acc with
  | none => simp [encodeNextInto_of_acc_none p x ha, eq_comm]
  | some a => simp [encodeNextInto_of_acc p x ha]

theorem pushByteInto_eq_refused_iff {p : Params} {b : Byte} {s : State} {why : Refusal} :
    pushByteInto p b s = .refused why ↔ why = .notReset ∧ (s.acc = none ∨ s.order = none) := by
  by_cases hnone : s.acc = none ∨ s.order = none
  · simp [pushByteInto_of_acc_none_or_order_none p b hnone, hnone, eq_comm]
  · obtain ⟨hacc, horder⟩ := not_or.mp hnone
    obtain ⟨a, ha⟩ := Option.ne_none_iff_exists'.mp hacc
    obtain ⟨o, ho⟩ := Option.ne_none_iff_exists'.mp horder
    simp [pushByteInto_of_registers p b ha ho, ha, ho]

/-- An operation is refused exactly where a register that it reads holds no value (R23, R97). -/
theorem exec_eq_refused_iff {i : Instr} {s : State} {why : Refusal} :
    exec i s = .refused why ↔ why = .notReset ∧
      (((i = .encodeNextP ∨ i = .encodeNextM) ∧ s.acc = none) ∨
        ((∃ b, i = .pushByte b) ∧ (s.acc = none ∨ s.order = none))) := by
  cases i with
  | expandLE b => simp [exec_expandLE]
  | expandBE b => simp [exec_expandBE]
  | new => simp [exec_new]
  | coreReset o => simp [exec_coreReset]
  | encodeNextP => simp [exec_encodeNextP, encodeNextInto_eq_refused_iff]
  | encodeNextM => simp [exec_encodeNextM, encodeNextInto_eq_refused_iff]
  | pushByte b => simp [exec_pushByte, pushByteInto_eq_refused_iff]

/-- Passing samples on neither refuses nor saves an operation. -/
theorem deliverOutcome_eq_refused_iff {u : Host.Outcome State Fault Refusal} {why : Refusal} :
    deliverOutcome u = .refused why ↔ u = .refused why := by
  cases u <;> simp [deliverOutcome]

/-- A reserved amplitude code is refused in every state, and `ACC` is looked at first (R63). -/
theorem rejectWord_reservedAmplitude_eq_refused_iff {s : State} {why : Refusal} :
    rejectWord .reservedAmplitude s = .refused why ↔
      (why = .notReset ∧ s.acc = none) ∨ (why = .reservedAmplitude ∧ s.acc ≠ none) := by
  cases ha : s.acc <;> simp [rejectWord, ha, eq_comm]

/-- What R97 says of a word presented in `s`: it is refused, and by the name `why`. -/
def RefusedWord (s : State) (r : Request) (why : Refusal) : Prop :=
  (why = .notReset ∧
      (((∃ c, r = .ampIn c) ∧ s.acc = none) ∨ ((∃ b, r = .byteIn b) ∧ (s.acc = none ∨ s.order = none)))) ∨
    (why = .reservedAmplitude ∧ s.acc ≠ none ∧ ReservedWord r)

theorem refusedWord_encode_iff {s : State} {i : Instr} {why : Refusal} :
    RefusedWord s (encode i) why ↔ exec i s = .refused why := by
  rw [exec_eq_refused_iff]
  cases i <;> simp [RefusedWord, ReservedWord, encode, ampCode]

theorem refusedWord_iff_of_reservedWord {s : State} {r : Request} {why : Refusal} (h : ReservedWord r) :
    RefusedWord s r why ↔ (why = .notReset ∧ s.acc = none) ∨ (why = .reservedAmplitude ∧ s.acc ≠ none) := by
  rcases h with rfl | rfl <;> simp [RefusedWord, ReservedWord]

theorem not_refusedWord_of_idleWord {s : State} {r : Request} {why : Refusal} (h : IdleWord r) :
    ¬ RefusedWord s r why := by
  rcases h with rfl | rfl | rfl <;> simp [RefusedWord, ReservedWord]

/-- A word is refused as R97 says, be it the word of an operation, reserved or idle. -/
theorem issue_eq_refused_iff {r : Request} {s : State} {why : Refusal} :
    issue r s = .refused why ↔ RefusedWord s r why := by
  rcases request_cases r with ⟨i, rfl⟩ | hreserved | hidle
  · rw [issue_of_decode_ok (decode_encode i), deliverOutcome_eq_refused_iff, refusedWord_encode_iff]
  · rw [issue_of_decode_error hreserved.decode_eq, rejectWord_reservedAmplitude_eq_refused_iff,
      refusedWord_iff_of_reservedWord hreserved]
  · rw [issue_of_decode_error hidle.decode_eq, rejectWord_idle]
    exact iff_of_false nofun (not_refusedWord_of_idleWord hidle)

/-- Settles O32: the host's move is never refused, and a step with a word to present is refused as that word is. -/
theorem refusalsExactly : Obligations.RefusalsExactly := by
  intro s why
  cases hreq : s.requests with
  | nil => simp [step_no_word hreq]
  | cons r rest =>
    have hstep : step s = .refused why ↔ RefusedWord s r why := by
      rw [step_word hreq]
      exact issue_eq_refused_iff
    rw [hstep]
    constructor
    · exact fun h => ⟨r, rest, rfl, h⟩
    · rintro ⟨r', rest', hwords, h⟩
      obtain ⟨rfl, rfl⟩ := List.cons.inj hwords
      exact h

theorem Ready.exists_registers {s : State} (h : Ready s) : ∃ a o, s.acc = some a ∧ s.order = some o := by
  obtain ⟨hacc, horder⟩ := h
  obtain ⟨a, ha⟩ := Option.isSome_iff_exists.mp hacc
  obtain ⟨o, ho⟩ := Option.isSome_iff_exists.mp horder
  exact ⟨a, o, ha, ho⟩

/-- An operation that completes takes no value from a register (R103). -/
theorem Ready.after_exec {i : Instr} {s t : State} (h : Ready s) (hexec : exec i s = .next t) : Ready t := by
  obtain ⟨hacc, horder⟩ := h
  rcases exec_next_cases hexec with
    ⟨b, o, rfl⟩ | ⟨-, rfl⟩ | ⟨o, -, rfl⟩ | ⟨a, x, -, rfl⟩ | ⟨a, o, b, -, -, rfl⟩
  · exact ⟨hacc, horder⟩
  · exact ⟨rfl, horder⟩
  · exact ⟨rfl, rfl⟩
  · exact ⟨rfl, horder⟩
  · exact ⟨rfl, horder⟩

/-- Where both registers hold a value no operation is refused. -/
theorem Ready.exec_ne_refused {s : State} (h : Ready s) (i : Instr) (why : Refusal) : exec i s ≠ .refused why := by
  obtain ⟨a, o, ha, ho⟩ := h.exists_registers
  simp [exec_eq_refused_iff, ha, ho]

/-- Settles O33: there is no fault, and a refusal needs a register without a value. -/
theorem readyNeverRefused : Obligations.ReadyNeverRefused := by
  intro i s hready
  cases hexec : exec i s with
  | next t => exact ⟨t, rfl, hready.after_exec hexec⟩
  | fault f => cases f
  | refused why => exact absurd hexec (hready.exec_ne_refused i why)

end Sys2Proof.Machine

/-! PROOFS. The errors of the sink (spec/60_exceptions.md): a write that fails (R90, R91, R94), and a sink that cannot be
opened (R89, R105). -/

namespace Sys2Proof.Machine

theorem writeAll_cons_of_writeError {s : State} {later : List WriteResult} (h : s.sinkReplies = .writeError :: later)
    (y : Sample) (ys : List Sample) :
    writeAll (y :: ys) s = stopHost .sinkWriteError { s with sinkReplies := later } := by
  simp [writeAll, outWrite, h]

/-- Where `k` writes succeed and the next one fails, the first `k` samples are appended and the host stops. -/
theorem writeAll_of_writeError {ys : List Sample} {s : State} {k : Nat} {later : List WriteResult} (hk : k < ys.length)
    (h : s.sinkReplies = List.replicate k .ok ++ .writeError :: later) :
    writeAll ys s = stopHost .sinkWriteError { s with output := s.output ++ ys.take k, sinkReplies := later } := by
  induction ys generalizing s k with
  | nil => simp at hk
  | cons y ys ih =>
    cases k with
    | zero => simp [writeAll_cons_of_writeError h]
    | succ k =>
      have hfirst : .writeError ∉ s.sinkReplies.take 1 := by simp [h, List.replicate_succ]
      have hdrop : s.sinkReplies.drop 1 = List.replicate k .ok ++ .writeError :: later := by
        simp [h, List.replicate_succ]
      rw [writeAll_cons_of_ok (outWrite_of_no_error hfirst y), ih (Nat.lt_of_succ_lt_succ hk) hdrop]
      simp

/-- An operation that completes with samples, of whose writes the one after the first `k` fails. -/
theorem deliverOutcome_of_writeError {u : Host.Outcome State Fault Refusal} {s : State} {ys : List Sample} {k : Nat}
    {later : List WriteResult} (hu : u = .next s) (hys : s.result = .samples ys) (hk : k < ys.length)
    (h : s.sinkReplies = List.replicate k .ok ++ .writeError :: later) :
    deliverOutcome u =
      .next (stopHost .sinkWriteError { s with output := s.output ++ ys.take k, sinkReplies := later }) := by
  rw [hu, deliverOutcome, deliver_samples hys, writeAll_of_writeError hk h]

/-- A step with a byte whose write of sample `k` fails. -/
theorem step_byteIn_of_writeError {s : State} {b : Byte} {rest : List Request} {k : Nat} {later : List WriteResult}
    (hready : Ready s) (hreq : s.requests = .byteIn b :: rest) (hk : k < 8)
    (hreplies : s.sinkReplies = List.replicate k .ok ++ .writeError :: later) :
    ∃ a, step s = .next (stopHost .sinkWriteError { s with
      acc := some a, result := .samples (List.replicate 8 0#8), requests := rest
      output := s.output ++ List.replicate k 0#8, sinkReplies := later }) := by
  obtain ⟨a, o, ha, ho⟩ := hready.exists_registers
  have hexec := exec_pushByte_of_registers (s := { s with requests := rest }) b ha ho
  rw [stepRunsDecoded s _ rest (.pushByte b) hreq rfl,
    deliverOutcome_of_writeError hexec rfl (by simpa using hk) hreplies, List.take_replicate, Nat.min_eq_left hk.le]
  exact ⟨_, rfl⟩

/-- Words that start no session are all dropped when the host stops. -/
theorem dropWhile_startsSession_eq_nil {rs : List Request} (h : ∀ r ∈ rs, startsSession r = false) :
    rs.dropWhile (fun r => !startsSession r) = [] :=
  List.dropWhile_eq_nil_iff.mpr fun r hr => by simp [h r hr]

/-- Settles O43: the failed write stops the host, and with no word left a stopped host changes nothing. -/
theorem sinkWriteErrorLosesTheRest : Obligations.SinkWriteErrorLosesTheRest := by
  intro b s rest k later hready hreq hk hreplies
  obtain ⟨a, hstep⟩ := step_byteIn_of_writeError hready hreq hk hreplies
  exact ⟨_, hstep, rfl, rfl, rfl, rfl, rfl, fun hrest n =>
    stoppedIsFinal _ n (dropWhile_startsSession_eq_nil hrest) (.inr ⟨.sinkWriteError, rfl⟩)⟩

/-- Settles O44: with no word to present the step is the host's move, which finds that the sink does not open. -/
theorem sinkOpenErrorIssuesNothing : Obligations.SinkOpenErrorIssuesNothing := by
  intro s o hhost hreq
  rw [step_no_word hreq, hostMove_opening_fails hhost]
  simp [stopHost, hreq]

end Sys2Proof.Machine

/-! PROOFS. The reset family (spec/70_reset_and_hazards.md rules R100 to R102): what a session starts from. -/

namespace Sys2Proof.Machine

/-- Of the state before it a session keeps `CFG.ORDER` and the host's side alone (R28, R62, R102). -/
theorem startSession_congr {s s' : State} (horder : s.order = s'.order) (hrequests : s.requests = s'.requests)
    (hinput : s.input = s'.input) (hreplies : s.sinkReplies = s'.sinkReplies) (hhost : s.host = s'.host) :
    startSession s = startSession s' := by
  simp [startSession, horder, hrequests, hinput, hreplies, hhost]

/-- A CORE_RESET is a session started with the operand already in `CFG.ORDER`. -/
theorem exec_coreReset_eq_startSession (o : BitOrder) (s : State) :
    exec (.coreReset o) s = .next (startSession { s with order := some o }) := rfl

/-- Settles O36: both operations start a session, and the CORE_RESET from a `CFG.ORDER` that its operand fixes. -/
theorem resetForgetsThePast : Obligations.ResetForgetsThePast := by
  intro o s s' hrequests hinput hreplies hhost
  constructor
  · rw [exec_coreReset_eq_startSession, exec_coreReset_eq_startSession]
    exact congrArg _ (startSession_congr rfl hrequests hinput hreplies hhost)
  · intro horder
    rw [exec_new, exec_new, startSession_congr horder hrequests hinput hreplies hhost]

end Sys2Proof.Machine

/-! PROOFS. Where a run starts and how a word is placed before it: `State.reset` (spec/10_state.md rule R22,
spec/70_reset_and_hazards.md rule R100), and the bare table word that `State.withFetchWord` puts first (log entries 9 and 10). -/

namespace Sys2Proof.Machine

/-- `State.reset` is a session started from power-on, with the model's choice of operand in `CFG.ORDER` (log entry 7). -/
theorem reset_eq_startSession :
    State.reset = startSession { State.powerOn with order := some .littleEndianBits } := rfl

/-- Settles O26: `State.reset` is a started session, and a CORE_RESET is what starts it. -/
theorem resetState : Obligations.ResetState := by
  rw [Obligations.ResetState, reset_eq_startSession]
  exact ⟨startSession_acc _, startSession_order _, startSession_output _, startSession_result _,
    exec_coreReset_eq_startSession .littleEndianBits State.powerOn⟩

@[simp] theorem placeWord_requests (r : Request) (s : State) : (placeWord r s).requests = r :: s.requests := rfl

/-- A table word that stands for a port word places that word. -/
theorem withFetchWord_of_tableRequest {nbits w : Nat} {r : Request} (h : tableRequest nbits w = some r) (s : State) :
    s.withFetchWord nbits w = placeWord r s := by
  simp [State.withFetchWord, h]

/-- Taking the placed word gives back the state it was placed in, so the step is the word's issue there. -/
theorem step_placeWord (r : Request) (s : State) : step (placeWord r s) = issue r s :=
  step_word (placeWord_requests r s)

/-- Settles O31: the table word places its port word, and the step issues the placed word, which decodes. -/
theorem fetchWordRunsNext : Obligations.FetchWordRunsNext := by
  intro s nbits w r i htable hdec
  calc step (s.withFetchWord nbits w) = step (placeWord r s) := by rw [withFetchWord_of_tableRequest htable]
    _ = issue r s := step_placeWord r s
    _ = deliverOutcome (exec i s) := issue_of_decode_ok hdec s

end Sys2Proof.Machine
